-- ==== Sys2Proof/Word.lean ====
section
/-! DEFINITION. The three widths of the block (R4, R5): the byte, the unsigned 32-bit word and the 40-bit command word. -/

namespace Sys2Proof

/-- `u8` of R5. -/
abbrev Byte := BitVec 8

/-- `u32` of R5. -/
abbrev Word := BitVec 32

/-- The 40-bit value `cw` of R50 and R52. -/
abbrev CmdWord := BitVec 40

end Sys2Proof
end

