-- ==== Sys2Proof/Syntax.lean ====
section
/-! DEFINITION. The commands of the block (R56) as syntax, and the two things the host can present (R50, R160). -/

namespace Sys2Proof

/-- The twenty-one commands, one constructor per row of `spec/opcode_table.json`. An operand has exactly the width its
format gives it (R53 to R55), so no term of this type holds an operand its format has no room for. -/
inductive Instr where
  /-- `SYS.NOP` (R70). -/
  | sysNop
  /-- `SYS.RST` (R71). -/
  | sysRst
  /-- `SYS.STAT` (R72). -/
  | sysStat
  /-- `CRC.INIT` (R85). -/
  | crcInit
  /-- `CRC.UPD imm8` (R86). -/
  | crcUpd (imm8 : Byte)
  /-- `CRC.GET` (R87). -/
  | crcGet
  /-- `BUF.CLR` (R90). -/
  | bufClr
  /-- `BUF.PUSH imm8` (R91). -/
  | bufPush (imm8 : Byte)
  /-- `BUF.LEN` (R92). -/
  | bufLen
  /-- `FTR.PARSE` (R104). -/
  | ftrParse
  /-- `FTR.ENCB imm8` (R105). -/
  | ftrEncb (imm8 : Byte)
  /-- `FTR.RDORIG` (R106). -/
  | ftrRdorig
  /-- `FTR.RDCOMP` (R107). -/
  | ftrRdcomp
  /-- `FTR.RDCSUM` (R108). -/
  | ftrRdcsum
  /-- `FTR.RDKIND` (R109). -/
  | ftrRdkind
  /-- `FTR.WRORIG imm32` (R110). -/
  | ftrWrorig (imm32 : Word)
  /-- `FTR.WRCOMP imm32` (R111). -/
  | ftrWrcomp (imm32 : Word)
  /-- `FTR.WRCSUM imm32` (R112). -/
  | ftrWrcsum (imm32 : Word)
  /-- `FTR.WRKIND imm32` (R113). -/
  | ftrWrkind (imm32 : Word)
  /-- `VAL.RUN` (R126). -/
  | valRun
  /-- `PAY.RD imm32` (R127). -/
  | payRd (imm32 : Word)
deriving DecidableEq, Repr

/-- Why a word is illegal (R58). The response is the same for all three (R57). -/
inductive Illegal where
  /-- `op` is none of the 21 opcodes of R56. -/
  | reservedOpcode
  /-- A format-Z opcode with `arg != 0` (R53). -/
  | nonzeroArgument
  /-- A format-B opcode with `arg[31:8] != 0` (R54). -/
  | nonzeroReservedBits
deriving DecidableEq, Repr

/-- What the host presents between two states: a command word (R50) or a reset event (R160). -/
inductive Event where
  | command (cw : CmdWord)
  | reset
deriving DecidableEq, Repr

end Sys2Proof
end

