-- ==== Sys2Proof/Decode.lean ====
section
/-! DEFINITION. The decoder, total on all 2^40 words (R57), and the encoder (R52 to R56).

The command word is a parallel value with no byte order (R37), so decoding starts from the word itself. -/

namespace Sys2Proof

/-- Bits 39:32 (R52). -/
def opField (cw : CmdWord) : Byte := cw.extractLsb' 32 8

/-- Bits 31:0 (R52). -/
def argField (cw : CmdWord) : Word := cw.extractLsb' 0 32

/-- Format Z (R53): `arg[31:0]` must be zero. -/
def decodeZ (arg : Word) (i : Instr) : Except Illegal Instr :=
  if arg = 0#32 then .ok i else .error .nonzeroArgument

/-- Format B (R54): `arg[31:8]` must be zero, the operand is `arg[7:0]`. -/
def decodeB (arg : Word) (k : Byte → Instr) : Except Illegal Instr :=
  if arg.extractLsb' 8 24 = 0#24 then .ok (k (arg.extractLsb' 0 8)) else .error .nonzeroReservedBits

/-- Format W (R55): the operand is `arg[31:0]`. -/
def decodeW (arg : Word) (k : Word → Instr) : Except Illegal Instr :=
  .ok (k arg)

/-- R57 on the two fields of R52, by the opcode map of R56. -/
def decodeFields (op : Byte) (arg : Word) : Except Illegal Instr :=
  match op.toNat with
  | 0x00 => decodeZ arg .sysNop
  | 0x01 => decodeZ arg .sysRst
  | 0x02 => decodeZ arg .sysStat
  | 0x10 => decodeZ arg .crcInit
  | 0x11 => decodeB arg .crcUpd
  | 0x12 => decodeZ arg .crcGet
  | 0x20 => decodeZ arg .bufClr
  | 0x21 => decodeB arg .bufPush
  | 0x22 => decodeZ arg .bufLen
  | 0x30 => decodeZ arg .ftrParse
  | 0x31 => decodeB arg .ftrEncb
  | 0x34 => decodeZ arg .ftrRdorig
  | 0x35 => decodeZ arg .ftrRdcomp
  | 0x36 => decodeZ arg .ftrRdcsum
  | 0x37 => decodeZ arg .ftrRdkind
  | 0x38 => decodeW arg .ftrWrorig
  | 0x39 => decodeW arg .ftrWrcomp
  | 0x3A => decodeW arg .ftrWrcsum
  | 0x3B => decodeW arg .ftrWrkind
  | 0x40 => decodeZ arg .valRun
  | 0x41 => decodeW arg .payRd
  | _ => .error .reservedOpcode

/-- R57: the command of a word, or why the word is illegal (R58). -/
def decode (cw : CmdWord) : Except Illegal Instr :=
  decodeFields (opField cw) (argField cw)

/-- The opcode of a command (R56). -/
def opcodeOf : Instr → Byte
  | .sysNop => 0x00#8
  | .sysRst => 0x01#8
  | .sysStat => 0x02#8
  | .crcInit => 0x10#8
  | .crcUpd _ => 0x11#8
  | .crcGet => 0x12#8
  | .bufClr => 0x20#8
  | .bufPush _ => 0x21#8
  | .bufLen => 0x22#8
  | .ftrParse => 0x30#8
  | .ftrEncb _ => 0x31#8
  | .ftrRdorig => 0x34#8
  | .ftrRdcomp => 0x35#8
  | .ftrRdcsum => 0x36#8
  | .ftrRdkind => 0x37#8
  | .ftrWrorig _ => 0x38#8
  | .ftrWrcomp _ => 0x39#8
  | .ftrWrcsum _ => 0x3A#8
  | .ftrWrkind _ => 0x3B#8
  | .valRun => 0x40#8
  | .payRd _ => 0x41#8

/-- The argument field of a command: zero, `zext_32(imm8)` or `imm32` (R53 to R55, R61). -/
def argOf : Instr → Word
  | .sysNop => 0#32
  | .sysRst => 0#32
  | .sysStat => 0#32
  | .crcInit => 0#32
  | .crcUpd b => b.setWidth 32
  | .crcGet => 0#32
  | .bufClr => 0#32
  | .bufPush b => b.setWidth 32
  | .bufLen => 0#32
  | .ftrParse => 0#32
  | .ftrEncb b => b.setWidth 32
  | .ftrRdorig => 0#32
  | .ftrRdcomp => 0#32
  | .ftrRdcsum => 0#32
  | .ftrRdkind => 0#32
  | .ftrWrorig v => v
  | .ftrWrcomp v => v
  | .ftrWrcsum v => v
  | .ftrWrkind v => v
  | .valRun => 0#32
  | .payRd v => v

/-- R61: `op :: zext_32(operand)`, or `op :: 0` for format Z. -/
def encode (i : Instr) : CmdWord := opcodeOf i ++ argOf i

/-- The command this decoder reads from the table's number `w` of `nbits` bits (bit 0 the least significant bit of the
command word, `spec/opcode_table.json`); bits above `nbits` are zero. -/
def decodeTableWord (nbits w : Nat) : Option Instr :=
  (decode (BitVec.ofNat 40 (w % 2 ^ nbits))).toOption

end Sys2Proof
end

