-- ==== Sys2Proof/Config.lean ====
section
/-! DEFINITION. What an implementation of the block fixes: the capacity of the container buffer (R3). -/

namespace Sys2Proof

/-- The one implementation parameter (R3, D8). The field is a `u32`, so R3's upper bound `2^32 - 1` holds by the type;
the lower bound is `Config.wf`. It is held in the state as data that no step writes, so every statement holds for every
capacity (DESIGN CHOICE, log entry 1). -/
structure Config where
  bufsz : Word
deriving DecidableEq, Repr

/-- R3: `20 <= BUFSZ <= 2^32 - 1`. -/
def Config.wf (c : Config) : Bool := 20 ≤ c.bufsz.toNat

/-- The capacity the spec's test vectors start from (`95_test_vectors.md`: `BUFSZ = 64`). -/
def Config.ofVectors : Config := ⟨64#32⟩

end Sys2Proof
end

