-- ==== Sys2Proof/Machine/State.lean ====
section
/-! DEFINITION. The state of the block (R10), the host's side of its two ports (R50, R51, R160), and how a step can end. -/

namespace Sys2Proof.Machine

/-- The four general registers `F[0]` to `F[3]`, in the order of `FooterData` (R11). -/
structure FooterData where
  /-- `F_ORIG`, `originalSize`. -/
  orig : Word
  /-- `F_COMP`, `compressedSize`. -/
  comp : Word
  /-- `F_CSUM`, `checksum`. -/
  csum : Word
  /-- `F_KIND`, `compressionKind`. -/
  kind : Word
deriving DecidableEq, Repr

/-- One response (R51): `rsp_code[7:0]` and `rsp_data[31:0]`. -/
structure Response where
  code : Byte
  data : Word
deriving DecidableEq, Repr

/-- The response codes by name (R140); `Code.value` of `Flags.lean` gives the numbers. -/
inductive Code where
  | ok | eIllegal | eOverflow | eRange | eGate
  | eShort | eMagic | eSize | eCsum | eStored | eKind
deriving DecidableEq, Repr

/-- The values of the verdict register by name (R16); `Verdict.value` of `Flags.lean` gives the numbers. -/
inductive Verdict where
  | none | passStored | passLz4
  | failShort | failMagic | failSize | failCsum | failStored | failKind
deriving DecidableEq, Repr

/-- The container buffer (R13, R30) as a list of (index, byte) cells: indexes strictly rising, and no cell holding what
an unlisted index reads as (`Memory.unlisted`). `Memory.wf` says that form. -/
abbrev Memory := List Host.Cell

/-- Everything R10 names (`f`, `crcAcc`, `buf`, `len`, `verdict`); the parameter of R3 (`cfg`); and, outside the block,
what the host has presented and the block has not yet taken (`input`, R50, R160) and what it has answered so far, oldest
first (`responses`, R51, R8 item 9). The block has no program counter (R15). -/
structure State where
  /-- `BUFSZ` (R3). -/
  cfg : Config
  /-- `F[0..3]` (R11). -/
  f : FooterData
  /-- `CRC_ACC`, the raw accumulator (R12). -/
  crcAcc : Word
  /-- `BUF` (R13). -/
  buf : Memory
  /-- `LEN` (R14). -/
  len : Word
  /-- `VERDICT` (R16). -/
  verdict : Byte
  /-- Commands and reset events presented and not yet taken, next first (log entry 3). -/
  input : List Event
  /-- The responses given so far, oldest first; no rule reads it (log entry 4). -/
  responses : List Response
deriving DecidableEq, Repr

/-- The hardware has no fault (R8 item 5). The model has one, for states that R14 rules out. -/
inductive Fault where
  /-- An access to `BUF` at an index that does not exist, `>= BUFSZ` (R30). Raised by `State.withBytes` and
  `State.writeByte`, so by `BUF.PUSH`, `FTR.PARSE`, `VAL.RUN` and `PAY.RD`, and only where `LEN > BUFSZ`, which R14
  excludes and no step from reset reaches. Safe: the model stops where the spec gives nothing. -/
  | outsideBuffer
deriving DecidableEq, Repr

/-- Nothing of this block is refused; every word has a response (R57). -/
inductive Refusal where
  /-- An arm of `exec` that has no meaning yet. Raised by no arm: all 21 have theirs. Safe. -/
  | notModelled (mnemonic : String)
deriving DecidableEq, Repr

/-- How a command ends. -/
abbrev Result := Host.Outcome State Fault Refusal

/-- R22: `F = 0`. -/
def FooterData.zero : FooterData := ⟨0#32, 0#32, 0#32, 0#32⟩

/-- R22, R160: the state after a reset event, for a block of capacity `c`, with nothing presented and nothing answered
yet. `BUF` lists nothing: its content is unspecified and unobservable (R22; log entry 2). -/
def State.resetFor (c : Config) : State where
  cfg := c
  f := FooterData.zero
  crcAcc := 0xFFFFFFFF#32
  buf := []
  len := 0#32
  verdict := 0x00#8
  input := []
  responses := []

/-- R22 at the capacity of the spec's test vectors (DESIGN CHOICE, log entry 1). -/
def State.reset : State := State.resetFor Config.ofVectors

end Sys2Proof.Machine
end

