-- ==== Sys2Proof/Machine/Flags.lean ====
section
/-! DEFINITION. The numbers behind the response codes (R140) and the verdict register (R16), the gate (R17) and the
status word (R18). The block has no condition codes (R16). -/

namespace Sys2Proof.Machine

/-- R140, the column `code`. -/
def Code.value : Code → Byte
  | .ok => 0x00#8
  | .eIllegal => 0x01#8
  | .eOverflow => 0x02#8
  | .eRange => 0x03#8
  | .eGate => 0x04#8
  | .eShort => 0x10#8
  | .eMagic => 0x11#8
  | .eSize => 0x12#8
  | .eCsum => 0x13#8
  | .eStored => 0x14#8
  | .eKind => 0x15#8

/-- R16, the column `value`. -/
def Verdict.value : Verdict → Byte
  | .none => 0x00#8
  | .passStored => 0x01#8
  | .passLz4 => 0x02#8
  | .failShort => 0x10#8
  | .failMagic => 0x11#8
  | .failSize => 0x12#8
  | .failCsum => 0x13#8
  | .failStored => 0x14#8
  | .failKind => 0x15#8

/-- The code `VAL.RUN` answers with the verdict it writes (R126): `OK` with a passing one, the error of the same cause
with a failing one. -/
def Verdict.code : Verdict → Code
  | .none => .ok
  | .passStored => .ok
  | .passLz4 => .ok
  | .failShort => .eShort
  | .failMagic => .eMagic
  | .failSize => .eSize
  | .failCsum => .eCsum
  | .failStored => .eStored
  | .failKind => .eKind

/-- R17: `(VERDICT = 0x01) or (VERDICT = 0x02)`. -/
def State.gate (s : State) : Bool := s.verdict == 0x01#8 || s.verdict == 0x02#8

/-- R18: `zext_32(VERDICT)`. -/
def State.statusWord (s : State) : Word := s.verdict.setWidth 32

end Sys2Proof.Machine
end

