-- ==== Sys2Proof/Machine/Ops.lean ====
section
/-! DEFINITION. The named operations over the buffer and the registers, and the one way a command ends (R6). -/

namespace Sys2Proof.Machine

/-! ## The container buffer -/

/-- What an index that lists nothing reads as (DESIGN CHOICE, log entry 2). Only indexes below `LEN` are ever read
(R13, R43), and those have all been pushed. -/
def Memory.unlisted : Byte := 0x00#8

/-- `BUF[a]` (R6). -/
def Memory.read : Memory → Nat → Byte
  | [], _ => Memory.unlisted
  | (x, b) :: m, a => if x = a then b else Memory.read m a

/-- Put a cell before `m`, unless its byte is what an unlisted index reads as. -/
def Memory.consCell (a : Nat) (b : Byte) (m : Memory) : Memory :=
  if b = Memory.unlisted then m else (a, b) :: m

/-- `BUF[a] <- b` (R34), keeping the cells in their one form. -/
def Memory.write : Memory → Nat → Byte → Memory
  | [], a, b => Memory.consCell a b []
  | (x, y) :: m, a, b =>
    if a < x then Memory.consCell a b ((x, y) :: m)
    else if a = x then Memory.consCell a b m
    else (x, y) :: Memory.write m a b

/-- The cells lie at or above `lo`, strictly rising, and none holds `Memory.unlisted`. -/
def Memory.wfFrom : Nat → Memory → Bool
  | _, [] => true
  | lo, (a, b) :: m => decide (lo ≤ a) && (decide (b ≠ Memory.unlisted) && Memory.wfFrom (a + 1) m)

/-- The one form of a buffer. -/
def Memory.wf (m : Memory) : Bool := Memory.wfFrom 0 m

/-- `BUF[a : a + n]` (R6). -/
def Memory.slice (m : Memory) : Nat → Nat → List Byte
  | _, 0 => []
  | a, n + 1 => m.read a :: Memory.slice m (a + 1) n

/-- The number a byte sequence spells, lowest index least significant (R33, R35). -/
def leValue : List Byte → Nat
  | [] => 0
  | b :: bs => b.toNat + 256 * leValue bs

/-- `MemRead(addr, n)` (R33). -/
def State.memRead (s : State) (addr n : Nat) : Nat := leValue (s.buf.slice addr n)

/-- The container `BUF[0 : LEN]` (R120). -/
def State.container (s : State) : List Byte := s.buf.slice 0 s.len.toNat

/-! ## Register writes -/

/-- `F <- f`, all four registers. -/
def State.setF (s : State) (f : FooterData) : State := { s with f := f }

/-- `CRC_ACC <- a`. -/
def State.setCrcAcc (s : State) (a : Word) : State := { s with crcAcc := a }

/-- The buffer becomes `m`. -/
def State.setBuf (s : State) (m : Memory) : State := { s with buf := m }

/-- `LEN <- n`. -/
def State.setLen (s : State) (n : Word) : State := { s with len := n }

/-- `VERDICT <- v`. -/
def State.setVerdict (s : State) (v : Verdict) : State := { s with verdict := v.value }

/-- The host's events still to be taken. -/
def State.setInput (s : State) (l : List Event) : State := { s with input := l }

/-- The response `(code, data)` is given (R51). -/
def State.answer (s : State) (c : Code) (data : Word) : State :=
  { s with responses := s.responses ++ [⟨c.value, data⟩] }

/-! ## How a command ends -/

/-- `respond(code, data)` (R6): the command ends with that response. -/
def respond (s : State) (c : Code) (data : Word) : Result := .next (s.answer c data)

/-- `raise E_X(info)` (R6, R140): the same as `respond`. This is the whole of taking an error: nothing is saved, masked
or vectored (R144), and there is nothing to return from (R145). -/
def raise (s : State) (e : Code) (info : Word) : Result := respond s e info

/-- `VERDICT <- v; respond` with the code of that verdict (R126). -/
def judge (s : State) (v : Verdict) (data : Word) : Result := respond (s.setVerdict v) v.code data

/-! ## Accesses to the buffer -/

/-- Read `BUF[a : a + n]` and go on with the bytes. An index `>= BUFSZ` does not exist (R30). -/
def State.withBytes (s : State) (a n : Nat) (k : List Byte → Result) : Result :=
  if a + n ≤ s.cfg.bufsz.toNat then k (s.buf.slice a n) else .fault .outsideBuffer

/-- `MemWrite(a, 1, b)` (R34), then go on. An index `>= BUFSZ` does not exist (R30). -/
def State.writeByte (s : State) (a : Nat) (b : Byte) (k : State → Result) : Result :=
  if a < s.cfg.bufsz.toNat then k (s.setBuf (s.buf.write a b)) else .fault .outsideBuffer

/-! ## Reset -/

/-- R71, R160: every register takes its reset value; the bytes of `BUF` are not written (R19). -/
def State.resetRegisters (s : State) : State :=
  (((s.setF FooterData.zero).setCrcAcc 0xFFFFFFFF#32).setLen 0#32).setVerdict .none

end Sys2Proof.Machine
end

