-- ==== Sys2Proof/Machine/Buf.lean ====
section
/-! DEFINITION. The container buffer commands (R90 to R92). -/

namespace Sys2Proof.Machine

/-- `BUF.CLR` (R90): the bytes of `BUF` are not written. -/
def execBufClr (s : State) : Result := respond ((s.setLen 0#32).setVerdict .none) .ok 0#32

/-- `BUF.PUSH imm8` (R91). -/
def execBufPush (imm8 : Byte) (s : State) : Result :=
  if s.len = s.cfg.bufsz then raise s .eOverflow 0#32
  else s.writeByte s.len.toNat imm8 fun t =>
    respond ((t.setLen (t.len + 1#32)).setVerdict .none) .ok 0#32

/-- `BUF.LEN` (R92). -/
def execBufLen (s : State) : Result := respond s .ok s.len

end Sys2Proof.Machine
end

