-- ==== Sys2Proof/Machine/CrcUnit.lean ====
section
/-! DEFINITION. The CRC function (R80 to R84): CRC-32/IEEE in its reflected form. The parameter set is the spec's own
(R80, `93_implementation_defined.md` G1). -/

namespace Sys2Proof.Machine

/-- The reflected generator constant (R80). -/
def crcPoly : Word := 0xEDB88320#32

/-- The initial value and the final xor of R80. -/
def crcOnes : Word := 0xFFFFFFFF#32

/-- One iteration of the loop of R81. -/
def crcShift (a : Word) : Word :=
  if a.getLsbD 0 then (a >>> 1) ^^^ crcPoly else a >>> 1

/-- `n` iterations of the loop of R81. -/
def crcShifts : Nat → Word → Word
  | 0, a => a
  | n + 1, a => crcShifts n (crcShift a)

/-- `CrcStep(a, b)` (R81). -/
def crcStep (a : Word) (b : Byte) : Word := crcShifts 8 (a ^^^ b.setWidth 32)

/-- The loop of R83 from the accumulator `a` on. -/
def crcFeedRaw : Word → List Byte → Word
  | a, [] => a
  | a, b :: bs => crcFeedRaw (crcStep a b) bs

/-- `Raw(m)` (R84). -/
def crcRaw (m : List Byte) : Word := crcFeedRaw crcOnes m

/-- `Crc32(m)` (R83). -/
def crc32 (m : List Byte) : Word := crcRaw m ^^^ crcOnes

end Sys2Proof.Machine
end

