-- ==== Sys2Proof/Machine/Crc.lean ====
section
/-! DEFINITION. The CRC commands (R85 to R87). -/

namespace Sys2Proof.Machine

/-- `CRC.INIT` (R85). -/
def execCrcInit (s : State) : Result := respond (s.setCrcAcc crcOnes) .ok 0#32

/-- `CRC.UPD imm8` (R86). -/
def execCrcUpd (imm8 : Byte) (s : State) : Result :=
  respond (s.setCrcAcc (crcStep s.crcAcc imm8)) .ok 0#32

/-- `CRC.GET` (R87): the final xor is applied to the response only. -/
def execCrcGet (s : State) : Result := respond s .ok (s.crcAcc ^^^ crcOnes)

end Sys2Proof.Machine
end

