-- ==== Sys2Proof/Machine/Codec.lean ====
section
/-! DEFINITION. The footer codec (R100 to R102), pure functions on byte sequences. -/

namespace Sys2Proof.Machine

/-- The tag `D V P L` in ASCII, ascending indexes (R100). -/
def magic : List Byte := [0x44#8, 0x56#8, 0x50#8, 0x4C#8]

/-- `le32(v)` (R6): `v[7:0], v[15:8], v[23:16], v[31:24]`. -/
def le32 (v : Word) : List Byte :=
  [v.extractLsb' 0 8, v.extractLsb' 8 8, v.extractLsb' 16 8, v.extractLsb' 24 8]

/-- The little-endian `u32` a byte sequence spells (R33, R35). -/
def u32OfBytes (t : List Byte) : Word := BitVec.ofNat 32 (leValue t)

/-- `f[k]` of R101: the four bytes of `t` from `4k` on. -/
def fieldOfBytes (t : List Byte) (k : Nat) : Word := u32OfBytes ((t.drop (4 * k)).take 4)

/-- `t[16..19]` (R100). -/
def tagOfBytes (t : List Byte) : List Byte := (t.drop 16).take 4

/-- `DecodeFooter(t)` (R101); `none` is `InvalidMagic`. -/
def decodeFooter (t : List Byte) : Option FooterData :=
  if tagOfBytes t = magic then
    some ⟨fieldOfBytes t 0, fieldOfBytes t 1, fieldOfBytes t 2, fieldOfBytes t 3⟩
  else none

/-- `EncodeFooter(f)` (R102). -/
def encodeFooter (f : FooterData) : List Byte :=
  le32 f.orig ++ le32 f.comp ++ le32 f.csum ++ le32 f.kind ++ magic

end Sys2Proof.Machine
end

