-- ==== Sys2Proof/Machine/Operands.lean ====
section
/-! DEFINITION. The operand forms (R54, R55, R57): `imm8` is a `u8`, compared and returned as `zext_32(imm8)`; `imm32` is a
`u32`. Nothing is sign-extended, scaled or shifted. -/

namespace Sys2Proof.Machine

/-- `zext_32` of a byte (R6). -/
def zext32 (b : Byte) : Word := b.setWidth 32

/-- An index operand of format B as a number (R57, R105). -/
def indexOfByte (imm8 : Byte) : Nat := (zext32 imm8).toNat

/-- An index operand of format W as a number (R127). -/
def indexOfWord (imm32 : Word) : Nat := imm32.toNat

end Sys2Proof.Machine
end

