-- ==== Sys2Proof/Machine/Ftr.lean ====
section
/-! DEFINITION. The footer commands (R104 to R113). -/

namespace Sys2Proof.Machine

/-- `FTR.PARSE` (R104): the footer is the last 20 bytes of `BUF[0 : LEN]`. -/
def execFtrParse (s : State) : Result :=
  if s.len.toNat < 20 then raise s .eShort s.len
  else s.withBytes (s.len.toNat - 20) 20 fun t =>
    match decodeFooter t with
    | none => raise s .eMagic (u32OfBytes (tagOfBytes t))
    | some f => respond ((s.setF f).setVerdict .none) .ok 0#32

/-- `FTR.ENCB imm8` (R105): byte `imm8` of the encoded footer, from the `F` registers as they are now. -/
def execFtrEncb (imm8 : Byte) (s : State) : Result :=
  match (encodeFooter s.f)[indexOfByte imm8]? with
  | none => raise s .eRange 0#32
  | some b => respond s .ok (zext32 b)

/-- `FTR.RDORIG` (R106). -/
def execFtrRdorig (s : State) : Result := respond s .ok s.f.orig

/-- `FTR.RDCOMP` (R107). -/
def execFtrRdcomp (s : State) : Result := respond s .ok s.f.comp

/-- `FTR.RDCSUM` (R108). -/
def execFtrRdcsum (s : State) : Result := respond s .ok s.f.csum

/-- `FTR.RDKIND` (R109). -/
def execFtrRdkind (s : State) : Result := respond s .ok s.f.kind

/-- What the four `FTR.WR*` commands share (R110 to R113): `F` takes a new value, the verdict falls (R20). -/
def writeF (s : State) (f : FooterData) : Result := respond ((s.setF f).setVerdict .none) .ok 0#32

/-- `FTR.WRORIG imm32` (R110). -/
def execFtrWrorig (imm32 : Word) (s : State) : Result := writeF s { s.f with orig := imm32 }

/-- `FTR.WRCOMP imm32` (R111). -/
def execFtrWrcomp (imm32 : Word) (s : State) : Result := writeF s { s.f with comp := imm32 }

/-- `FTR.WRCSUM imm32` (R112). -/
def execFtrWrcsum (imm32 : Word) (s : State) : Result := writeF s { s.f with csum := imm32 }

/-- `FTR.WRKIND imm32` (R113). -/
def execFtrWrkind (imm32 : Word) (s : State) : Result := writeF s { s.f with kind := imm32 }

end Sys2Proof.Machine
end

