-- ==== Sys2Proof/Machine/Sys.lean ====
section
/-! DEFINITION. The system commands (R70 to R72). -/

namespace Sys2Proof.Machine

/-- `SYS.NOP` (R70). -/
def execSysNop (s : State) : Result := respond s .ok 0#32

/-- `SYS.RST` (R71). -/
def execSysRst (s : State) : Result := respond s.resetRegisters .ok 0#32

/-- `SYS.STAT` (R72). -/
def execSysStat (s : State) : Result := respond s .ok s.statusWord

end Sys2Proof.Machine
end

