-- ==== Sys2Proof/Machine/Val.lean ====
section
/-! DEFINITION. The payload validator, one definition per step of the source's order (R121 to R125), and the payload read
port (R127). -/

namespace Sys2Proof.Machine

/-- `PLEN = LEN - 20`, formed only where `LEN >= 20` (R31). -/
def State.plen (s : State) : Nat := s.len.toNat - 20

/-- Step 5, dispatch on `compressionKind` (R125). -/
def valKind (s : State) : Result :=
  if s.f.kind = 0#32 then
    if s.f.orig = s.f.comp then judge s .passStored s.f.orig
    else judge s .failStored s.f.orig
  else if s.f.kind = 1#32 ∨ s.f.kind = 2#32 then judge s .passLz4 s.f.orig
  else judge s .failKind s.f.kind

/-- Step 4, checksum (R124): `CRC_ACC` is written whether or not the check passes. -/
def valChecksum (s : State) : Result :=
  s.withBytes 0 s.plen fun payload =>
    if crc32 payload = s.f.csum then valKind (s.setCrcAcc (crc32 payload ^^^ crcOnes))
    else judge (s.setCrcAcc (crc32 payload ^^^ crcOnes)) .failCsum (crc32 payload)

/-- Step 3, size (R123). -/
def valSize (s : State) : Result :=
  if s.plen = s.f.comp.toNat then valChecksum s
  else judge s .failSize (BitVec.ofNat 32 s.plen)

/-- Step 2, magic and decode (R122): the `F` registers are written once the tag is right. -/
def valMagic (s : State) : Result :=
  s.withBytes s.plen 20 fun t =>
    match decodeFooter t with
    | none => judge s .failMagic (u32OfBytes (tagOfBytes t))
    | some f => valSize (s.setF f)

/-- `VAL.RUN` (R126), which begins with step 1, length (R121). -/
def execValRun (s : State) : Result :=
  if s.len.toNat < 20 then judge s .failShort s.len
  else valMagic s

/-- `PAY.RD imm32` (R127). The range check is written `imm32 + 20 < LEN`, which is `imm32 < LEN - 20` of the rule with no
subtraction below zero (DEDUCED, log entry 6). -/
def execPayRd (imm32 : Word) (s : State) : Result :=
  if s.gate then
    if indexOfWord imm32 + 20 < s.len.toNat then
      s.withBytes (indexOfWord imm32) 1 fun t => respond s .ok (u32OfBytes t)
    else raise s .eRange 0#32
  else raise s .eGate 0#32

end Sys2Proof.Machine
end

