-- ==== Sys2Proof/Machine/Dispatch.lean ====
section
/-! DEFINITION. The dispatch of a decoded command to its meaning (R57, last line). -/

namespace Sys2Proof.Machine

def exec (i : Instr) (s : State) : Host.Outcome State Fault Refusal :=
  match i with
  | .sysNop => Sys2Proof.Machine.execSysNop s
  | .sysRst => Sys2Proof.Machine.execSysRst s
  | .sysStat => Sys2Proof.Machine.execSysStat s
  | .crcInit => Sys2Proof.Machine.execCrcInit s
  | .crcUpd imm8 => Sys2Proof.Machine.execCrcUpd imm8 s
  | .crcGet => Sys2Proof.Machine.execCrcGet s
  | .bufClr => Sys2Proof.Machine.execBufClr s
  | .bufPush imm8 => Sys2Proof.Machine.execBufPush imm8 s
  | .bufLen => Sys2Proof.Machine.execBufLen s
  | .ftrParse => Sys2Proof.Machine.execFtrParse s
  | .ftrEncb imm8 => Sys2Proof.Machine.execFtrEncb imm8 s
  | .ftrRdorig => Sys2Proof.Machine.execFtrRdorig s
  | .ftrRdcomp => Sys2Proof.Machine.execFtrRdcomp s
  | .ftrRdcsum => Sys2Proof.Machine.execFtrRdcsum s
  | .ftrRdkind => Sys2Proof.Machine.execFtrRdkind s
  | .ftrWrorig imm32 => Sys2Proof.Machine.execFtrWrorig imm32 s
  | .ftrWrcomp imm32 => Sys2Proof.Machine.execFtrWrcomp imm32 s
  | .ftrWrcsum imm32 => Sys2Proof.Machine.execFtrWrcsum imm32 s
  | .ftrWrkind imm32 => Sys2Proof.Machine.execFtrWrkind imm32 s
  | .valRun => Sys2Proof.Machine.execValRun s
  | .payRd imm32 => Sys2Proof.Machine.execPayRd imm32 s

end Sys2Proof.Machine
end

