-- ==== Sys2Proof/Machine/Port.lean ====
section
/-! DEFINITION. The ports (R50, R51, R160): what the block does with the next event of the host, apart from the commands. -/

namespace Sys2Proof.Machine

/-- The next event the host has presented, and the state with that event taken (R50: one word per step, in order). -/
def State.takeEvent (s : State) : Option (Event × State) :=
  match s.input with
  | [] => none
  | e :: rest => some (e, s.setInput rest)

/-- The host presents one more event, ahead of those still waiting. -/
def State.present (s : State) (e : Event) : State := s.setInput (e :: s.input)

/-- An illegal word (R57, R58): `E_ILLEGAL` with no state change, whatever makes it illegal. -/
def illegalWord (_ : Illegal) (s : State) : Result := raise s .eIllegal 0#32

/-- A reset event (R160): the effect of `SYS.RST` on the registers, and no response. -/
def resetEvent (s : State) : Result := .next s.resetRegisters

/-- Nothing is presented: the block does nothing (R147, R152; DEDUCED, log entry 3). -/
def idle (s : State) : Result := .next s

end Sys2Proof.Machine
end

