-- ==== Sys2Proof/Machine/Step.lean ====
section
/-! DEFINITION. One step of the block (R50): take the next event; a command word is decoded and performed to completion. -/

namespace Sys2Proof.Machine

/-- A command word that has been taken (R57). -/
def runWord (cw : CmdWord) (s : State) : Result :=
  match decode cw with
  | .ok i => exec i s
  | .error e => illegalWord e s

/-- One step (R50, R160). -/
def step (s : State) : Host.Outcome State Fault Refusal :=
  match s.takeEvent with
  | none => idle s
  | some (.command cw, t) => runWord cw t
  | some (.reset, t) => resetEvent t

/-- The host presents the table's number `w` of `nbits` bits as the next command word. -/
def State.withFetchWord (s : State) (nbits w : Nat) : State :=
  s.present (.command (BitVec.ofNat 40 (w % 2 ^ nbits)))

end Sys2Proof.Machine
end

