-- ==== Sys2Proof/Machine/Pseudo.lean ====
section
/-! DEFINITION. The pseudo-commands (R62): each is a fixed sequence of commands and nothing else. -/

namespace Sys2Proof.Machine

/-- `BUF.LOAD b0 b1 ... bn` (R62). -/
def bufLoad (bs : List Byte) : List Instr := bs.map .bufPush

/-- `CRC.FEED b0 b1 ... bn` (R62). -/
def crcFeed (bs : List Byte) : List Instr := bs.map .crcUpd

/-- `FTR.SET o c s k` (R62). -/
def ftrSet (o c s k : Word) : List Instr := [.ftrWrorig o, .ftrWrcomp c, .ftrWrcsum s, .ftrWrkind k]

/-- `FTR.ENC` (R62): `FTR.ENCB 0` to `FTR.ENCB 19`. -/
def ftrEnc : List Instr := (List.range 20).map fun i => .ftrEncb (BitVec.ofNat 8 i)

/-- Commands performed one after the other, each to completion before the next (R50). -/
def performAll : List Instr → State → Result
  | [], s => .next s
  | i :: is, s =>
    match exec i s with
    | .next t => performAll is t
    | .fault f => .fault f
    | .refused r => .refused r

/-- The events by which the host presents a sequence of commands (R50). -/
def presentAll (is : List Instr) : List Event := is.map fun i => .command (encode i)

end Sys2Proof.Machine
end

