-- ==== Sys2Proof/Machine/Text.lean ====
section
/-! DEFINITION. The text form of commands, pseudo-commands and responses (R61, R62), on lists of characters. -/

namespace Sys2Proof.Machine

/-! ## Literals -/

/-- A decimal digit. -/
def decDigit (c : Char) : Option Nat :=
  if 48 ≤ c.toNat ∧ c.toNat ≤ 57 then some (c.toNat - 48) else none

/-- A hexadecimal digit, in either case (DESIGN CHOICE, log entry 8). -/
def hexDigit (c : Char) : Option Nat :=
  if 48 ≤ c.toNat ∧ c.toNat ≤ 57 then some (c.toNat - 48)
  else if 65 ≤ c.toNat ∧ c.toNat ≤ 70 then some (c.toNat - 55)
  else if 97 ≤ c.toNat ∧ c.toNat ≤ 102 then some (c.toNat - 87)
  else none

/-- The number a digit sequence spells, most significant digit first, after the digits already read into `acc`. -/
def digitsValue (base : Nat) (digit : Char → Option Nat) : Nat → List Char → Option Nat
  | acc, [] => some acc
  | acc, c :: cs =>
    match digit c with
    | none => none
    | some d => digitsValue base digit (acc * base + d) cs

/-- An unsigned integer literal (R61): decimal, or hexadecimal with prefix `0x`. -/
def literal : List Char → Option Nat
  | [] => none
  | '0' :: 'x' :: c :: cs => digitsValue 16 hexDigit 0 (c :: cs)
  | cs => digitsValue 10 decDigit 0 cs

/-- A literal that fits format B (R61: `<= 255`). -/
def byteLiteral (cs : List Char) : Option Byte :=
  match literal cs with
  | none => none
  | some n => if n ≤ 255 then some (BitVec.ofNat 8 n) else none

/-- A literal that fits format W (R61: `<= 2^32 - 1`). -/
def wordLiteral (cs : List Char) : Option Word :=
  match literal cs with
  | none => none
  | some n => if n ≤ 4294967295 then some (BitVec.ofNat 32 n) else none

/-- Several literals of format B. -/
def byteLiterals : List (List Char) → Option (List Byte)
  | [] => some []
  | w :: ws =>
    match byteLiteral w, byteLiterals ws with
    | some b, some bs => some (b :: bs)
    | _, _ => none

/-! ## Lines -/

/-- What a mnemonic stands for, by format (R53 to R55). -/
inductive Spelling where
  | z (i : Instr)
  | b (k : Byte → Instr)
  | w (k : Word → Instr)

/-- The mnemonics of R56. -/
def mnemonicTable : List (List Char × Spelling) :=
  [ (['S', 'Y', 'S', '.', 'N', 'O', 'P'], .z .sysNop),
    (['S', 'Y', 'S', '.', 'R', 'S', 'T'], .z .sysRst),
    (['S', 'Y', 'S', '.', 'S', 'T', 'A', 'T'], .z .sysStat),
    (['C', 'R', 'C', '.', 'I', 'N', 'I', 'T'], .z .crcInit),
    (['C', 'R', 'C', '.', 'U', 'P', 'D'], .b .crcUpd),
    (['C', 'R', 'C', '.', 'G', 'E', 'T'], .z .crcGet),
    (['B', 'U', 'F', '.', 'C', 'L', 'R'], .z .bufClr) ]
  ++
  [ (['B', 'U', 'F', '.', 'P', 'U', 'S', 'H'], .b .bufPush),
    (['B', 'U', 'F', '.', 'L', 'E', 'N'], .z .bufLen),
    (['F', 'T', 'R', '.', 'P', 'A', 'R', 'S', 'E'], .z .ftrParse),
    (['F', 'T', 'R', '.', 'E', 'N', 'C', 'B'], .b .ftrEncb),
    (['F', 'T', 'R', '.', 'R', 'D', 'O', 'R', 'I', 'G'], .z .ftrRdorig),
    (['F', 'T', 'R', '.', 'R', 'D', 'C', 'O', 'M', 'P'], .z .ftrRdcomp),
    (['F', 'T', 'R', '.', 'R', 'D', 'C', 'S', 'U', 'M'], .z .ftrRdcsum) ]
  ++
  [ (['F', 'T', 'R', '.', 'R', 'D', 'K', 'I', 'N', 'D'], .z .ftrRdkind),
    (['F', 'T', 'R', '.', 'W', 'R', 'O', 'R', 'I', 'G'], .w .ftrWrorig),
    (['F', 'T', 'R', '.', 'W', 'R', 'C', 'O', 'M', 'P'], .w .ftrWrcomp),
    (['F', 'T', 'R', '.', 'W', 'R', 'C', 'S', 'U', 'M'], .w .ftrWrcsum),
    (['F', 'T', 'R', '.', 'W', 'R', 'K', 'I', 'N', 'D'], .w .ftrWrkind),
    (['V', 'A', 'L', '.', 'R', 'U', 'N'], .z .valRun),
    (['P', 'A', 'Y', '.', 'R', 'D'], .w .payRd) ]

/-- The command a mnemonic and its operand words spell (R61). -/
def commandOfWords (name : List Char) (operands : List (List Char)) : Option Instr :=
  match mnemonicTable.lookup name, operands with
  | some (.z i), [] => some i
  | some (.b k), [w] => (byteLiteral w).map k
  | some (.w k), [w] => (wordLiteral w).map k
  | _, _ => none

/-- The commands a pseudo-command and its operand words stand for (R62). -/
def pseudoOfWords (name : List Char) (operands : List (List Char)) : Option (List Instr) :=
  if name = ['B', 'U', 'F', '.', 'L', 'O', 'A', 'D'] ∧ operands ≠ [] then (byteLiterals operands).map bufLoad
  else if name = ['C', 'R', 'C', '.', 'F', 'E', 'E', 'D'] ∧ operands ≠ [] then (byteLiterals operands).map crcFeed
  else if name = ['F', 'T', 'R', '.', 'E', 'N', 'C'] ∧ operands = [] then some ftrEnc
  else if name = ['F', 'T', 'R', '.', 'S', 'E', 'T'] then
    match operands.map wordLiteral with
    | [some o, some c, some s, some k] => some (ftrSet o c s k)
    | _ => none
  else none

/-- The words of a line, divided at every single space. -/
def splitWords : List Char → List (List Char)
  | [] => [[]]
  | c :: cs =>
    if c = ' ' then [] :: splitWords cs
    else
      match splitWords cs with
      | [] => [[c]]
      | w :: ws => (c :: w) :: ws

/-- The line before its comment (R61: `;` starts one), without the spaces that stand before the comment or at the end
(DESIGN CHOICE, log entry 8). -/
def lineBody (line : List Char) : List Char :=
  ((line.takeWhile (· != ';')).reverse.dropWhile (· == ' ')).reverse

/-- The commands a line of text stands for (R61, R62); `none` where it spells none. -/
def assembleLine (line : List Char) : Option (List Instr) :=
  match splitWords (lineBody line) with
  | [] => none
  | name :: operands =>
    match commandOfWords name operands with
    | some i => some [i]
    | none => pseudoOfWords name operands

/-- The command words of a line (R61: "The encoding of a line"). -/
def wordsOfLine (line : List Char) : Option (List CmdWord) :=
  (assembleLine line).map fun is => is.map encode

/-! ## Writing -/

/-- One upper-case hexadecimal digit of `n < 16`. -/
def hexChar (n : Nat) : Char := if n < 10 then Char.ofNat (48 + n) else Char.ofNat (55 + n)

/-- The last `k` hexadecimal digits of `v`, most significant first. -/
def hexDigits : Nat → Nat → List Char
  | 0, _ => []
  | k + 1, v => hexDigits k (v / 16) ++ [hexChar (v % 16)]

/-- The mnemonic of a command (R56). -/
def mnemonicOf : Instr → List Char
  | .sysNop => ['S', 'Y', 'S', '.', 'N', 'O', 'P']
  | .sysRst => ['S', 'Y', 'S', '.', 'R', 'S', 'T']
  | .sysStat => ['S', 'Y', 'S', '.', 'S', 'T', 'A', 'T']
  | .crcInit => ['C', 'R', 'C', '.', 'I', 'N', 'I', 'T']
  | .crcUpd _ => ['C', 'R', 'C', '.', 'U', 'P', 'D']
  | .crcGet => ['C', 'R', 'C', '.', 'G', 'E', 'T']
  | .bufClr => ['B', 'U', 'F', '.', 'C', 'L', 'R']
  | .bufPush _ => ['B', 'U', 'F', '.', 'P', 'U', 'S', 'H']
  | .bufLen => ['B', 'U', 'F', '.', 'L', 'E', 'N']
  | .ftrParse => ['F', 'T', 'R', '.', 'P', 'A', 'R', 'S', 'E']
  | .ftrEncb _ => ['F', 'T', 'R', '.', 'E', 'N', 'C', 'B']
  | .ftrRdorig => ['F', 'T', 'R', '.', 'R', 'D', 'O', 'R', 'I', 'G']
  | .ftrRdcomp => ['F', 'T', 'R', '.', 'R', 'D', 'C', 'O', 'M', 'P']
  | .ftrRdcsum => ['F', 'T', 'R', '.', 'R', 'D', 'C', 'S', 'U', 'M']
  | .ftrRdkind => ['F', 'T', 'R', '.', 'R', 'D', 'K', 'I', 'N', 'D']
  | .ftrWrorig _ => ['F', 'T', 'R', '.', 'W', 'R', 'O', 'R', 'I', 'G']
  | .ftrWrcomp _ => ['F', 'T', 'R', '.', 'W', 'R', 'C', 'O', 'M', 'P']
  | .ftrWrcsum _ => ['F', 'T', 'R', '.', 'W', 'R', 'C', 'S', 'U', 'M']
  | .ftrWrkind _ => ['F', 'T', 'R', '.', 'W', 'R', 'K', 'I', 'N', 'D']
  | .valRun => ['V', 'A', 'L', '.', 'R', 'U', 'N']
  | .payRd _ => ['P', 'A', 'Y', '.', 'R', 'D']

/-- The operand as written after the mnemonic: one space and a hexadecimal literal, or nothing (R61). -/
def operandText : Instr → List Char
  | .crcUpd b => ' ' :: '0' :: 'x' :: hexDigits 2 b.toNat
  | .bufPush b => ' ' :: '0' :: 'x' :: hexDigits 2 b.toNat
  | .ftrEncb b => ' ' :: '0' :: 'x' :: hexDigits 2 b.toNat
  | .ftrWrorig v => ' ' :: '0' :: 'x' :: hexDigits 8 v.toNat
  | .ftrWrcomp v => ' ' :: '0' :: 'x' :: hexDigits 8 v.toNat
  | .ftrWrcsum v => ' ' :: '0' :: 'x' :: hexDigits 8 v.toNat
  | .ftrWrkind v => ' ' :: '0' :: 'x' :: hexDigits 8 v.toNat
  | .payRd v => ' ' :: '0' :: 'x' :: hexDigits 8 v.toNat
  | .sysNop => []
  | .sysRst => []
  | .sysStat => []
  | .crcInit => []
  | .crcGet => []
  | .bufClr => []
  | .bufLen => []
  | .ftrParse => []
  | .ftrRdorig => []
  | .ftrRdcomp => []
  | .ftrRdcsum => []
  | .ftrRdkind => []
  | .valRun => []

/-- The text form of a command (R61). -/
def textOf (i : Instr) : List Char := mnemonicOf i ++ operandText i

/-- The text form of a response (R61): `(code, data)` in hexadecimal. -/
def responseText (r : Response) : List Char :=
  '(' :: hexDigits 2 r.code.toNat ++ ',' :: ' ' :: hexDigits 8 r.data.toNat ++ [')']

end Sys2Proof.Machine
end

