-- ==== Sys2Proof/Safety.lean ====
section
/-! DEFINITION. The terms claims are stated in: the states a run can reach, the pass invariant (R21), when two states look
the same to the host (R43), and how a word of each format is answered (R53 to R58). -/

namespace Sys2Proof.Machine

/-- The nine values of R16. -/
def verdictValues : List Byte := [0x00#8, 0x01#8, 0x02#8, 0x10#8, 0x11#8, 0x12#8, 0x13#8, 0x14#8, 0x15#8]

/-- The eleven codes of R140. -/
def codeValues : List Byte := [0x00#8, 0x01#8, 0x02#8, 0x03#8, 0x04#8, 0x10#8, 0x11#8, 0x12#8, 0x13#8, 0x14#8, 0x15#8]

/-! ## The container -/

/-- `BUF[LEN-4 : LEN]`, where `LEN >= 20`. -/
def State.tag (s : State) : List Byte := s.buf.slice (s.len.toNat - 4) 4

/-- The four fields of the container's footer as R104 reads them, where `LEN >= 20`. -/
def State.footerAt (s : State) : FooterData where
  orig := BitVec.ofNat 32 (s.memRead (s.len.toNat - 20) 4)
  comp := BitVec.ofNat 32 (s.memRead (s.len.toNat - 16) 4)
  csum := BitVec.ofNat 32 (s.memRead (s.len.toNat - 12) 4)
  kind := BitVec.ofNat 32 (s.memRead (s.len.toNat - 8) 4)

/-- `BUF[0 : LEN-20]`, where `LEN >= 20` (R122). -/
def State.payload (s : State) : List Byte := s.buf.slice 0 (s.len.toNat - 20)

/-- The magic check passes (R104, R122). -/
abbrev State.TagOk (s : State) : Prop := 20 ≤ s.len.toNat ∧ s.tag = [0x44#8, 0x56#8, 0x50#8, 0x4C#8]

/-- The magic and size checks pass, so step 4 is reached (R123, R124). -/
abbrev State.SizeOk (s : State) : Prop := s.TagOk ∧ s.len.toNat - 20 = s.footerAt.comp.toNat

/-! ## Invariants -/

/-- What R3, R13, R14 and R16 say of every state after a reset: the capacity is in its range, `LEN <= BUFSZ`, the verdict
register holds one of its nine values, and the buffer is in its one form with no cell outside `BUF`. -/
structure State.Wf (s : State) : Prop where
  cfg : s.cfg.wf = true
  len : s.len.toNat ≤ s.cfg.bufsz.toNat
  verdict : s.verdict ∈ verdictValues
  buf : s.buf.wf = true
  inside : ∀ c ∈ s.buf, c.1 < s.cfg.bufsz.toNat

/-- The conclusion of R21: the container passes every check, and `F` holds its footer. -/
structure State.Passed (s : State) : Prop where
  tag : s.TagOk
  fields : s.f = s.footerAt
  size : s.f.comp.toNat = s.len.toNat - 20
  checksum : crc32 s.payload = s.f.csum
  stored : s.verdict = 0x01#8 → s.f.kind = 0#32 ∧ s.f.orig = s.f.comp
  lz4 : s.verdict = 0x02#8 → s.f.kind = 1#32 ∨ s.f.kind = 2#32

/-- R21: if the gate holds, the container has passed. -/
def State.PassInv (s : State) : Prop := s.gate = true → s.Passed

/-- The outcome of the checks on the container as it is now, in their order (R120, R142), as a value of R16. -/
def State.outcome (s : State) : Byte :=
  if s.len.toNat < 20 then 0x10#8
  else if ¬ s.TagOk then 0x11#8
  else if ¬ s.SizeOk then 0x12#8
  else if crc32 s.payload ≠ s.footerAt.csum then 0x13#8
  else if s.footerAt.kind = 0#32 then if s.footerAt.orig = s.footerAt.comp then 0x01#8 else 0x14#8
  else if s.footerAt.kind = 1#32 ∨ s.footerAt.kind = 2#32 then 0x02#8
  else 0x15#8

/-- R16: the verdict register holds `NONE`, or the outcome of the container as it is now, with the `F` registers as the
`VAL.RUN` that judged it wrote them. -/
def State.VerdictInv (s : State) : Prop :=
  s.verdict = 0x00#8 ∨ (s.verdict = s.outcome ∧ (s.TagOk → s.f = s.footerAt))

/-- Every register of R22 holds its reset value. -/
structure State.AtReset (s : State) : Prop where
  f : s.f = ⟨0#32, 0#32, 0#32, 0#32⟩
  crcAcc : s.crcAcc = 0xFFFFFFFF#32
  len : s.len = 0#32
  verdict : s.verdict = 0x00#8

/-- Two states the spec does not tell apart: everything equal but the bytes of `BUF` at indexes `>= LEN` (R13, R43). -/
structure State.SameButStale (s t : State) : Prop where
  cfg : s.cfg = t.cfg
  f : s.f = t.f
  crcAcc : s.crcAcc = t.crcAcc
  len : s.len = t.len
  verdict : s.verdict = t.verdict
  input : s.input = t.input
  responses : s.responses = t.responses
  bytes : ∀ a, a < s.len.toNat → s.buf.read a = t.buf.read a

/-- Two states with the same container: the same capacity, `LEN` and bytes `BUF[0 : LEN]`. -/
structure State.SameContainer (s t : State) : Prop where
  cfg : s.cfg = t.cfg
  len : s.len = t.len
  bytes : ∀ a, a < s.len.toNat → s.buf.read a = t.buf.read a

/-! ## How words are answered -/

/-- Presented next, the word `cw` performs the command `i`. -/
def RunsAs (cw : CmdWord) (i : Instr) : Prop :=
  ∀ s rest, s.input = .command cw :: rest → step s = exec i { s with input := rest }

/-- Presented next, the word `cw` is answered `(E_ILLEGAL, 0)` with no other change (R58). -/
def AnsweredIllegal (cw : CmdWord) : Prop :=
  ∀ s rest, s.input = .command cw :: rest →
    step s = .next { s with input := rest, responses := s.responses ++ [⟨0x01#8, 0#32⟩] }

/-- `op` is a format-Z opcode of the command `i` (R53). -/
def FormatZ (op : Byte) (i : Instr) : Prop :=
  RunsAs (op ++ 0#32) i ∧ ∀ arg : Word, arg ≠ 0#32 → AnsweredIllegal (op ++ arg)

/-- `op` is a format-B opcode of the commands `k` (R54). -/
def FormatB (op : Byte) (k : Byte → Instr) : Prop :=
  (∀ b : Byte, RunsAs (op ++ (0#24 ++ b)) (k b)) ∧
    ∀ arg : Word, arg.extractLsb' 8 24 ≠ 0#24 → AnsweredIllegal (op ++ arg)

/-- `op` is a format-W opcode of the commands `k` (R55). -/
def FormatW (op : Byte) (k : Word → Instr) : Prop := ∀ v : Word, RunsAs (op ++ v) (k v)

/-! ## Runs -/

/-- How many command words stand in a list of events (each is owed one response, R51; a reset event none, R160). -/
def commandCount : List Event → Nat
  | [] => 0
  | .command _ :: es => commandCount es + 1
  | .reset :: es => commandCount es

/-- The bytes the `CRC.UPD` commands of a sequence feed, in order. -/
def fedBytes : List Instr → List Byte
  | [] => []
  | .crcUpd b :: is => b :: fedBytes is
  | _ :: is => fedBytes is

/-- The sequence holds none of the other commands that write `CRC_ACC` (R12). -/
def keepsStream (is : List Instr) : Prop := .sysRst ∉ is ∧ .crcInit ∉ is ∧ .valRun ∉ is

end Sys2Proof.Machine
end

