-- ==== Sys2Proof/WellFormed.lean ====
section
/-! DEFINITION. Which command words are legal, read off the opcode table's masks (R53 to R56), apart from the decoder.

A term of `Instr` is well formed by its type: every operand has the width of its format. What can be ill formed is a
WORD, in three ways (R58): a reserved opcode, a format-Z word with an argument, a format-B word with reserved bits set.
This file transcribes the masks and matches of `spec/opcode_table.json`; `Decode.lean` transcribes the procedure of R57. -/

namespace Sys2Proof

/-- The mask of each format (R53, R54, R55). -/
def maskZ : CmdWord := 0xFFFFFFFFFF#40
@[inherit_doc maskZ] def maskB : CmdWord := 0xFFFFFFFF00#40
@[inherit_doc maskZ] def maskW : CmdWord := 0xFF00000000#40

/-- The twenty-one rows of `spec/opcode_table.json`: (mask, match). -/
def tableRows : List (CmdWord × CmdWord) :=
  [ (maskZ, 0x0000000000#40), (maskZ, 0x0100000000#40), (maskZ, 0x0200000000#40),
    (maskZ, 0x1000000000#40), (maskB, 0x1100000000#40), (maskZ, 0x1200000000#40),
    (maskZ, 0x2000000000#40), (maskB, 0x2100000000#40), (maskZ, 0x2200000000#40),
    (maskZ, 0x3000000000#40), (maskB, 0x3100000000#40) ]
  ++
  [ (maskZ, 0x3400000000#40), (maskZ, 0x3500000000#40), (maskZ, 0x3600000000#40), (maskZ, 0x3700000000#40),
    (maskW, 0x3800000000#40), (maskW, 0x3900000000#40), (maskW, 0x3A00000000#40), (maskW, 0x3B00000000#40),
    (maskZ, 0x4000000000#40), (maskW, 0x4100000000#40) ]

/-- R56: "a word `cw` selects the row if and only if `(cw and mask) = match`". -/
def selectsRow (cw : CmdWord) (row : CmdWord × CmdWord) : Bool := cw &&& row.1 == row.2

/-- R56: a word is legal when it selects some row. -/
def legalWord (cw : CmdWord) : Bool := tableRows.any (selectsRow cw)

end Sys2Proof
end

