-- ==== Sys2Proof/Certificates/Slice0/Obligations.lean ====
section
/-! DEFINITION. The statements for the provers. Each cites the rules it formalises. -/

open Sys2Proof Sys2Proof.Machine

/-! ## Ports, decoding, encoding -/

/-- R50, R57: when the word presented next decodes to `i`, the step takes it and performs `i`. -/
def Obligations.StepRunsDecodedCommand : Prop :=
  ∀ (s : State) (cw : CmdWord) (rest : List Event) (i : Instr),
    s.input = .command cw :: rest → decode cw = .ok i → step s = exec i { s with input := rest }

/-- R51: every command word, legal or not, is taken and gives exactly one response, with a code of R140. -/
def Obligations.EveryWordGetsOneResponse : Prop :=
  ∀ (s : State) (cw : CmdWord) (rest : List Event), s.Wf → s.input = .command cw :: rest →
    ∃ t r, step s = .next t ∧ t.input = rest ∧ t.responses = s.responses ++ [r] ∧ r.code ∈ codeValues

/-- R172: from any state that meets the invariant, whatever the host presents is performed to the end: after one step per
event nothing is waiting, and every command word has had its response. -/
def Obligations.RunAnswersEveryCommand : Prop :=
  ∀ s : State, s.Wf → ∃ t, Host.Core.run Sys2Proof.core s.input.length s = .next t ∧ t.input = [] ∧ t.Wf ∧
    t.responses.length = s.responses.length + commandCount s.input ∧ s.responses <+: t.responses

/-- R52 to R57: decoding the word of a command gives the command, every operand at every value. -/
def Obligations.DecodeOfEncode : Prop :=
  ∀ i : Instr, decode (encode i) = .ok i

/-- R56, R57: a word that decodes is the one word of its command. -/
def Obligations.EncodeOfDecode : Prop :=
  ∀ (cw : CmdWord) (i : Instr), decode cw = .ok i → encode i = cw

/-- R56: the decoder accepts exactly the words that select a row of the table, and no word selects two rows. -/
def Obligations.DecoderAgreesWithTable : Prop :=
  (∀ cw : CmdWord, legalWord cw = true ↔ ∃ i, decode cw = .ok i) ∧
  ∀ (cw : CmdWord) (m n : Nat) (r q : CmdWord × CmdWord), tableRows[m]? = some r → tableRows[n]? = some q →
    selectsRow cw r = true → selectsRow cw q = true → m = n

/-- R58: the illegal words are exactly those with a reserved opcode, a format-Z argument that is not zero, or format-B
reserved bits that are not zero; each is answered `(E_ILLEGAL, 0)` with no state change, every other word performs a
command. -/
def Obligations.IllegalWords : Prop :=
  ∀ cw : CmdWord,
    let op := (cw.extractLsb' 32 8).toNat
    let arg := cw.extractLsb' 0 32
    let reserved := op ∈ List.range' 0x03 0x0D ∨ op ∈ List.range' 0x13 0x0D ∨ op ∈ List.range' 0x23 0x0D ∨
      op = 0x32 ∨ op = 0x33 ∨ op ∈ List.range' 0x3C 4 ∨ op ∈ List.range' 0x42 0xBE
    let illegalZ := op ∈ [0x00, 0x01, 0x02, 0x10, 0x12, 0x20, 0x22, 0x30, 0x34, 0x35, 0x36, 0x37, 0x40] ∧ arg ≠ 0#32
    let illegalB := op ∈ [0x11, 0x21, 0x31] ∧ arg.extractLsb' 8 24 ≠ 0#24
    ((reserved ∨ illegalZ ∨ illegalB) → AnsweredIllegal cw) ∧
    (¬ (reserved ∨ illegalZ ∨ illegalB) → ∃ i, RunsAs cw i)

/-- R60: how many words are legal. -/
def Obligations.LegalWordCount : Prop :=
  Nat.card (Subtype fun cw : CmdWord => (decode cw).toOption.isSome = true) = 13 + 768 + 5 * 2 ^ 32

/-- R63: the worked encodings. -/
def Obligations.WorkedEncodings : Prop :=
  decode 0x1100000031#40 = .ok (.crcUpd 0x31#8) ∧ decode 0x2100000044#40 = .ok (.bufPush 0x44#8) ∧
  decode 0x3A352441C2#40 = .ok (.ftrWrcsum 0x352441C2#32) ∧ decode 0x4000000000#40 = .ok .valRun ∧
  decode 0x4100000002#40 = .ok (.payRd 2#32) ∧ decode 0x4000000001#40 = .error .nonzeroArgument ∧
  decode 0x2100000100#40 = .error .nonzeroReservedBits ∧ decode 0x3300000000#40 = .error .reservedOpcode

/-- R61: the text form of a command, read back, is that command, and its encoding is `op :: zext_32(operand)`. -/
def Obligations.TextRoundTrip : Prop :=
  ∀ i : Instr, assembleLine (textOf i) = some [i] ∧ wordsOfLine (textOf i) = some [opcodeOf i ++ argOf i]

/-! ## Reset and the system commands -/

/-- R22: the reset values, after a reset event at any capacity and after `SYS.RST`, and what the reading commands then
answer. -/
def Obligations.ResetValuesAndWhatTheyAnswer : Prop :=
  (∀ c : Config, (State.resetFor c).AtReset) ∧
  (∀ s t : State, exec .sysRst s = .next t → t.AtReset) ∧
  (∀ (s t : State) (rest : List Event), s.input = .reset :: rest → step s = .next t → t.AtReset) ∧
  ∀ s : State, s.AtReset →
    exec .crcGet s = .next { s with responses := s.responses ++ [⟨0x00#8, 0#32⟩] } ∧
    exec .bufLen s = .next { s with responses := s.responses ++ [⟨0x00#8, 0#32⟩] } ∧
    exec .sysStat s = .next { s with responses := s.responses ++ [⟨0x00#8, 0#32⟩] } ∧
    (∀ v, exec (.payRd v) s = .next { s with responses := s.responses ++ [⟨0x04#8, 0#32⟩] }) ∧
    ∀ (b : Byte) (x : Byte), (List.replicate 16 0x00#8 ++ [0x44#8, 0x56#8, 0x50#8, 0x4C#8])[b.toNat]? = some x →
      exec (.ftrEncb b) s = .next { s with responses := s.responses ++ [⟨0x00#8, x.setWidth 32⟩] }

/-- R160, R147: what a step does apart from commands. A reset event gives every register its reset value and no response;
`BUF` is left as it is, which is the model's choice (log entry 2): the rule leaves its content unspecified. Where nothing is
presented the step changes nothing, which is the model's reading (log entry 3): the spec has no such step. -/
def Obligations.StepWithoutACommand : Prop :=
  (∀ (s : State) (rest : List Event), s.input = .reset :: rest →
    step s = .next
      { s with f := ⟨0#32, 0#32, 0#32, 0#32⟩, crcAcc := 0xFFFFFFFF#32, len := 0#32, verdict := 0x00#8, input := rest }) ∧
  ∀ s : State, s.input = [] → step s = .next s

/-- R70. -/
def Obligations.SysNopRule : Prop :=
  FormatZ 0x00#8 .sysNop ∧
  ∀ s : State, exec .sysNop s = .next { s with responses := s.responses ++ [⟨0x00#8, 0#32⟩] }

/-- R71: the registers take their reset values and `BUF` is not written; the effect is that of the reset input, with a
response; the gate is closed after it; in the reset state it changes nothing. -/
def Obligations.SysRstRule : Prop :=
  FormatZ 0x01#8 .sysRst ∧
  (∀ s : State, exec .sysRst s = .next
    { s with f := ⟨0#32, 0#32, 0#32, 0#32⟩, crcAcc := 0xFFFFFFFF#32, len := 0#32, verdict := 0x00#8,
             responses := s.responses ++ [⟨0x00#8, 0#32⟩] }) ∧
  (∀ (s : State) (rest : List Event), s.input = .reset :: rest →
    ∃ t, step s = .next t ∧
      exec .sysRst { s with input := rest } = .next { t with responses := t.responses ++ [⟨0x00#8, 0#32⟩] }) ∧
  (∀ s t : State, exec .sysRst s = .next t → t.gate = false) ∧
  ∀ s : State, s.AtReset → exec .sysRst s = .next { s with responses := s.responses ++ [⟨0x00#8, 0#32⟩] }

/-- R72, R18: the status word is `VERDICT` in bits 7:0 and zero above; after a failing `VAL.RUN` it repeats that command's
error code. -/
def Obligations.SysStatRule : Prop :=
  FormatZ 0x02#8 .sysStat ∧
  (∀ s : State, ∃ w : Word, w.extractLsb' 0 8 = s.verdict ∧ w.extractLsb' 8 24 = 0#24 ∧
    (s.Wf → w.toNat ∈ [0x00, 0x01, 0x02, 0x10, 0x11, 0x12, 0x13, 0x14, 0x15]) ∧
    exec .sysStat s = .next { s with responses := s.responses ++ [⟨0x00#8, w⟩] }) ∧
  ∀ (s t : State) (r : Response), exec .valRun s = .next t → t.responses = s.responses ++ [r] → r.code ≠ 0x00#8 →
    exec .sysStat t = .next { t with responses := t.responses ++ [⟨0x00#8, r.code.setWidth 32⟩] }

/-! ## The CRC -/

/-- R81: one data byte is eight iterations of the loop; the table form; the table entries given. -/
def Obligations.CrcStepLoopAndTable : Prop :=
  (∀ (a : Word) (b : Byte), crcStep a b =
    (fun x : Word => if x.getLsbD 0 = true then (x >>> 1) ^^^ 0xEDB88320#32 else x >>> 1)^[8] (a ^^^ b.setWidth 32)) ∧
  (∀ (a : Word) (b : Byte), crcStep a b =
    (a >>> 8) ^^^ crcStep 0#32 ((a ^^^ b.setWidth 32).extractLsb' 0 8)) ∧
  crcStep 0#32 0x00#8 = 0x00000000#32 ∧ crcStep 0#32 0x01#8 = 0x77073096#32 ∧
  crcStep 0#32 0x80#8 = 0xEDB88320#32 ∧ crcStep 0#32 0xFF#8 = 0x2D02EF8D#32

/-- R82: `CrcStep` is linear over xor and invertible, one loop iteration being undone as the rule says, and two sequences of
equal length that differ in exactly one byte have different checksums. -/
def Obligations.CrcLinearInvertibleSensitive : Prop :=
  (∀ (a : Word) (b : Byte), crcStep a b = crcStep (a ^^^ b.setWidth 32) 0#8) ∧
  (∀ x y : Word, crcStep (x ^^^ y) 0#8 = crcStep x 0#8 ^^^ crcStep y 0#8) ∧
  crcStep 0#32 0#8 = 0#32 ∧
  Function.Bijective (fun a : Word => crcStep a 0#8) ∧
  (∀ a r : Word, r = (if a.getLsbD 0 = true then (a >>> 1) ^^^ 0xEDB88320#32 else a >>> 1) →
    r.getLsbD 31 = a.getLsbD 0 ∧
    a = (if r.getLsbD 31 = true then ((r ^^^ 0xEDB88320#32) <<< 1) ||| 1#32 else r <<< 1)) ∧
  ∀ (m n : List Byte) (b c : Byte), b ≠ c → crc32 (m ++ b :: n) ≠ crc32 (m ++ c :: n)

/-- R83: the checksum of a sequence, bytes in ascending index order; the empty sequence gives zero. -/
def Obligations.CrcOfSequence : Prop :=
  (∀ m : List Byte, crc32 m = m.foldl crcStep 0xFFFFFFFF#32 ^^^ 0xFFFFFFFF#32) ∧ crc32 [] = 0x00000000#32

/-- R84: `Raw` grows byte by byte, and `CRC_ACC` holds `Raw` of the bytes fed since `CRC.INIT` as long as no other command
writes it; `CRC.GET` then answers `Crc32` of them and leaves the stream as it was. -/
def Obligations.CrcStreaming : Prop :=
  crcRaw [] = 0xFFFFFFFF#32 ∧
  (∀ m, crc32 m = crcRaw m ^^^ 0xFFFFFFFF#32) ∧
  (∀ m b, crcRaw (m ++ [b]) = crcStep (crcRaw m) b) ∧
  (∀ (is : List Instr) (s t : State), keepsStream is → performAll (.crcInit :: is) s = .next t →
    t.crcAcc = crcRaw (fedBytes is) ∧
    exec .crcGet t = .next { t with responses := t.responses ++ [⟨0x00#8, crc32 (fedBytes is)⟩] }) ∧
  ∀ (m : List Byte) (s : State),
    performAll (.crcInit :: crcFeed m) s = .next
      { s with crcAcc := crcRaw m, responses := s.responses ++ List.replicate (m.length + 1) ⟨0x00#8, 0#32⟩ }

/-- R88: the values given, and the residue of a message followed by its own checksum. -/
def Obligations.CrcValuesAndResidue : Prop :=
  crc32 [] = 0x00000000#32 ∧ crc32 [0x61#8] = 0xE8B7BE43#32 ∧ crc32 [0x61#8, 0x62#8, 0x63#8] = 0x352441C2#32 ∧
  crc32 [0x31#8, 0x32#8, 0x33#8, 0x34#8, 0x35#8, 0x36#8, 0x37#8, 0x38#8, 0x39#8] = 0xCBF43926#32 ∧
  crc32 [0x00#8] = 0xD202EF8D#32 ∧ crc32 [0xFF#8] = 0xFF000000#32 ∧
  crc32 [0x00#8, 0x00#8, 0x00#8, 0x00#8] = 0x2144DF1C#32 ∧ crc32 [0xFF#8, 0xFF#8, 0xFF#8, 0xFF#8] = 0xFFFFFFFF#32 ∧
  crc32 [0x44#8, 0x56#8, 0x50#8, 0x4C#8] = 0x98D2129B#32 ∧
  ∀ m : List Byte, crcRaw (m ++ le32 (crc32 m)) = 0xDEBB20E3#32 ∧ crc32 (m ++ le32 (crc32 m)) = 0x2144DF1C#32

/-- R85. -/
def Obligations.CrcInitRule : Prop :=
  FormatZ 0x10#8 .crcInit ∧
  (∀ s : State, exec .crcInit s = .next
    { s with crcAcc := 0xFFFFFFFF#32, responses := s.responses ++ [⟨0x00#8, 0#32⟩] }) ∧
  ∀ s t : State, exec .crcInit s = .next t →
    exec .crcGet t = .next { t with responses := t.responses ++ [⟨0x00#8, 0#32⟩] }

/-- R86, with its corner cases and examples. -/
def Obligations.CrcUpdRule : Prop :=
  FormatB 0x11#8 .crcUpd ∧
  (∀ (b : Byte) (s : State), exec (.crcUpd b) s = .next
    { s with crcAcc := crcStep s.crcAcc b, responses := s.responses ++ [⟨0x00#8, 0#32⟩] }) ∧
  (∀ a : Word, a ≠ 0#32 → crcStep a 0x00#8 ≠ a) ∧ crcStep 0#32 0x00#8 = 0#32 ∧
  crcStep 0xFFFFFFFF#32 0x00#8 = 0x2DFD1072#32 ∧
  (List.range 9).map (fun k => crcShifts k (0xFFFFFFFF#32 ^^^ 0x31#32)) =
    [0xFFFFFFCE#32, 0x7FFFFFE7#32, 0xD2477CD3#32, 0x849B3D49#32, 0xAFF51D84#32, 0x57FA8EC2#32, 0x2BFD4761#32,
      0xF8462090#32, 0x7C231048#32] ∧
  crcStep 0xFFFFFFFF#32 0x31#8 = 0x7C231048#32 ∧ crcStep 0x7C231048#32 0x32#8 = 0xB0ACBB32#32

/-- R87: the final xor is applied to the response only; after a `VAL.RUN` that reached its step 4 the answer is `Crc32` of
the payload, after one that stopped earlier the stream is what it was. -/
def Obligations.CrcGetRule : Prop :=
  FormatZ 0x12#8 .crcGet ∧
  (∀ s : State, exec .crcGet s = .next
    { s with responses := s.responses ++ [⟨0x00#8, s.crcAcc ^^^ 0xFFFFFFFF#32⟩] }) ∧
  ∀ s t : State, exec .valRun s = .next t →
    (s.SizeOk → exec .crcGet t = .next { t with responses := t.responses ++ [⟨0x00#8, crc32 s.payload⟩] }) ∧
    (¬ s.SizeOk → t.crcAcc = s.crcAcc)

/-! ## The container buffer -/

/-- R90; a verdict held over an empty buffer can only be `NONE` or `FAIL_SHORT`. -/
def Obligations.BufClrRule : Prop :=
  FormatZ 0x20#8 .bufClr ∧
  (∀ s : State, exec .bufClr s = .next
    { s with len := 0#32, verdict := 0x00#8, responses := s.responses ++ [⟨0x00#8, 0#32⟩] }) ∧
  ∀ s : State, s.VerdictInv → s.len = 0#32 → s.verdict = 0x00#8 ∨ s.verdict = 0x10#8

/-- R91, R34: a full buffer answers `E_OVERFLOW` and nothing changes; otherwise the byte is at index `LEN`, every other
byte of `BUF` is as before, and `LEN` is one more, without wrapping. -/
def Obligations.BufPushRule : Prop :=
  FormatB 0x21#8 .bufPush ∧
  (∀ (b : Byte) (s : State), s.len = s.cfg.bufsz →
    exec (.bufPush b) s = .next { s with responses := s.responses ++ [⟨0x02#8, 0#32⟩] }) ∧
  ∀ (b : Byte) (s : State), s.buf.wf = true → s.len.toNat < s.cfg.bufsz.toNat →
    ∃ m n, exec (.bufPush b) s = .next
        { s with buf := m, len := n, verdict := 0x00#8, responses := s.responses ++ [⟨0x00#8, 0#32⟩] } ∧
      n.toNat = s.len.toNat + 1 ∧ m.read s.len.toNat = b ∧ ∀ a, a ≠ s.len.toNat → m.read a = s.buf.read a

/-- R92: the length of the container, which is at most `BUFSZ`. -/
def Obligations.BufLenRule : Prop :=
  FormatZ 0x22#8 .bufLen ∧
  (∀ s : State, exec .bufLen s = .next { s with responses := s.responses ++ [⟨0x00#8, s.len⟩] }) ∧
  ∀ s : State, s.len.toNat = s.container.length ∧ (s.Wf → s.len.toNat ≤ s.cfg.bufsz.toNat)

/-- R62, R91: `BUF.LOAD` of bytes that fit appends them to the container and changes no other register but the verdict. -/
def Obligations.BufLoadAppends : Prop :=
  ∀ (bs : List Byte) (s : State), s.Wf → s.len.toNat + bs.length ≤ s.cfg.bufsz.toNat →
    ∃ t, performAll (bufLoad bs) s = .next t ∧ t.Wf ∧ t.container = s.container ++ bs ∧
      t.len.toNat = s.len.toNat + bs.length ∧ (bs ≠ [] → t.verdict = 0x00#8) ∧
      t.cfg = s.cfg ∧ t.f = s.f ∧ t.crcAcc = s.crcAcc ∧ t.input = s.input ∧
      t.responses = s.responses ++ List.replicate bs.length ⟨0x00#8, 0#32⟩

/-- R33: `MemRead` is the little-endian sum. -/
def Obligations.MemReadIsLittleEndian : Prop :=
  ∀ (s : State) (addr n : Nat),
    s.memRead addr n = ∑ k ∈ Finset.range n, (s.buf.read (addr + k)).toNat * 256 ^ k

/-! ## The footer -/

/-- R101: the magic is tested first; the four fields are then the little-endian numbers of their bytes, unjudged. -/
def Obligations.DecodeFooterRule : Prop :=
  ∀ t : Fin 20 → Byte, decodeFooter (List.ofFn t) =
    if t 16 = 0x44#8 ∧ t 17 = 0x56#8 ∧ t 18 = 0x50#8 ∧ t 19 = 0x4C#8 then
      some ⟨BitVec.ofNat 32 ((t 0).toNat + 256 * (t 1).toNat + 65536 * (t 2).toNat + 16777216 * (t 3).toNat),
        BitVec.ofNat 32 ((t 4).toNat + 256 * (t 5).toNat + 65536 * (t 6).toNat + 16777216 * (t 7).toNat),
        BitVec.ofNat 32 ((t 8).toNat + 256 * (t 9).toNat + 65536 * (t 10).toNat + 16777216 * (t 11).toNat),
        BitVec.ofNat 32 ((t 12).toNat + 256 * (t 13).toNat + 65536 * (t 14).toNat + 16777216 * (t 15).toNat)⟩
    else none

/-- R102: 20 bytes; byte `i` of the four fields in order, then the magic. -/
def Obligations.EncodeFooterRule : Prop :=
  ∀ f : FooterData, (encodeFooter f).length = 20 ∧
    (∀ i, i < 16 → (encodeFooter f)[i]? =
      some (([f.orig, f.comp, f.csum, f.kind].getD (i / 4) 0#32).extractLsb' (8 * (i % 4)) 8)) ∧
    (encodeFooter f).drop 16 = [0x44#8, 0x56#8, 0x50#8, 0x4C#8]

/-- R103: both directions of the footer round trip. -/
def Obligations.FooterRoundTrip : Prop :=
  (∀ f : FooterData, decodeFooter (encodeFooter f) = some f) ∧
  ∀ t : List Byte, t.length = 20 → t.drop 16 = [0x44#8, 0x56#8, 0x50#8, 0x4C#8] →
    ∃ f, decodeFooter t = some f ∧ encodeFooter f = t

/-- R104: `E_SHORT`, then `E_MAGIC`, then the four fields as `MemRead` gives them. -/
def Obligations.FtrParseRule : Prop :=
  FormatZ 0x30#8 .ftrParse ∧
  (∀ s : State, s.len.toNat < 20 →
    exec .ftrParse s = .next { s with responses := s.responses ++ [⟨0x10#8, s.len⟩] }) ∧
  (∀ s : State, 20 ≤ s.len.toNat → s.len.toNat ≤ s.cfg.bufsz.toNat → ¬ s.TagOk →
    ∃ d : Word, d.toNat = s.memRead (s.len.toNat - 4) 4 ∧ d ≠ 0x4C505644#32 ∧
      exec .ftrParse s = .next { s with responses := s.responses ++ [⟨0x11#8, d⟩] }) ∧
  ∀ s : State, s.len.toNat ≤ s.cfg.bufsz.toNat → s.TagOk →
    ∃ f : FooterData, f.orig.toNat = s.memRead (s.len.toNat - 20) 4 ∧ f.comp.toNat = s.memRead (s.len.toNat - 16) 4 ∧
      f.csum.toNat = s.memRead (s.len.toNat - 12) 4 ∧ f.kind.toNat = s.memRead (s.len.toNat - 8) 4 ∧
      exec .ftrParse s = .next { s with f := f, verdict := 0x00#8, responses := s.responses ++ [⟨0x00#8, 0#32⟩] }

/-- R105: byte `imm8` of the encoded footer; `E_RANGE` from 20 on; the tag in every state; the example. -/
def Obligations.FtrEncbRule : Prop :=
  FormatB 0x31#8 .ftrEncb ∧
  (∀ (b : Byte) (s : State), 20 ≤ b.toNat →
    exec (.ftrEncb b) s = .next { s with responses := s.responses ++ [⟨0x03#8, 0#32⟩] }) ∧
  (∀ (b : Byte) (s : State), b.toNat < 20 →
    ∃ x, (encodeFooter s.f)[b.toNat]? = some x ∧
      exec (.ftrEncb b) s = .next { s with responses := s.responses ++ [⟨0x00#8, x.setWidth 32⟩] }) ∧
  (∀ s : State,
    exec (.ftrEncb 16#8) s = .next { s with responses := s.responses ++ [⟨0x00#8, 0x44#32⟩] } ∧
    exec (.ftrEncb 17#8) s = .next { s with responses := s.responses ++ [⟨0x00#8, 0x56#32⟩] } ∧
    exec (.ftrEncb 18#8) s = .next { s with responses := s.responses ++ [⟨0x00#8, 0x50#32⟩] } ∧
    exec (.ftrEncb 19#8) s = .next { s with responses := s.responses ++ [⟨0x00#8, 0x4C#32⟩] }) ∧
  encodeFooter ⟨0x00000050#32, 0x0000003E#32, 0x12345678#32, 0x00000002#32⟩ =
    [0x50#8, 0x00#8, 0x00#8, 0x00#8, 0x3E#8, 0x00#8, 0x00#8, 0x00#8, 0x78#8, 0x56#8, 0x34#8, 0x12#8, 0x02#8, 0x00#8,
      0x00#8, 0x00#8, 0x44#8, 0x56#8, 0x50#8, 0x4C#8]

/-- R62, R105: the answers to `FTR.ENC` are the encoded footer, and nothing else changes. -/
def Obligations.FtrEncAnswersTheFooter : Prop :=
  ∀ s : State, performAll ftrEnc s = .next
    { s with responses := s.responses ++ (encodeFooter s.f).map fun x => ⟨0x00#8, x.setWidth 32⟩ }

/-- R106 to R109: the four reads; while the gate is open `F_COMP` is the payload length. -/
def Obligations.FtrReadRules : Prop :=
  FormatZ 0x34#8 .ftrRdorig ∧ FormatZ 0x35#8 .ftrRdcomp ∧ FormatZ 0x36#8 .ftrRdcsum ∧ FormatZ 0x37#8 .ftrRdkind ∧
  (∀ s : State, s.PassInv → s.gate = true → s.f.comp.toNat = s.len.toNat - 20) ∧
  ∀ s : State,
    exec .ftrRdorig s = .next { s with responses := s.responses ++ [⟨0x00#8, s.f.orig⟩] } ∧
    exec .ftrRdcomp s = .next { s with responses := s.responses ++ [⟨0x00#8, s.f.comp⟩] } ∧
    exec .ftrRdcsum s = .next { s with responses := s.responses ++ [⟨0x00#8, s.f.csum⟩] } ∧
    exec .ftrRdkind s = .next { s with responses := s.responses ++ [⟨0x00#8, s.f.kind⟩] }

/-- R110 to R113: the four writes; the verdict falls even when the value is the one already held. -/
def Obligations.FtrWriteRules : Prop :=
  FormatW 0x38#8 .ftrWrorig ∧ FormatW 0x39#8 .ftrWrcomp ∧ FormatW 0x3A#8 .ftrWrcsum ∧ FormatW 0x3B#8 .ftrWrkind ∧
  ∀ (v : Word) (s : State),
    exec (.ftrWrorig v) s = .next { s with f := { s.f with orig := v }, verdict := 0x00#8, responses := s.responses ++ [⟨0x00#8, 0#32⟩] } ∧
    exec (.ftrWrcomp v) s = .next { s with f := { s.f with comp := v }, verdict := 0x00#8, responses := s.responses ++ [⟨0x00#8, 0#32⟩] } ∧
    exec (.ftrWrcsum v) s = .next { s with f := { s.f with csum := v }, verdict := 0x00#8, responses := s.responses ++ [⟨0x00#8, 0#32⟩] } ∧
    exec (.ftrWrkind v) s = .next { s with f := { s.f with kind := v }, verdict := 0x00#8, responses := s.responses ++ [⟨0x00#8, 0#32⟩] }

/-- R103, R104: an encoded footer pushed at the end of the container parses back to the fields it was made of, whatever
they are. -/
def Obligations.PushedFooterParsesBack : Prop :=
  ∀ (f : FooterData) (s : State), s.Wf → s.len.toNat + 20 ≤ s.cfg.bufsz.toNat →
    ∃ t u, performAll (bufLoad (encodeFooter f)) s = .next t ∧ exec .ftrParse t = .next u ∧
      u = { t with f := f, verdict := 0x00#8, responses := t.responses ++ [⟨0x00#8, 0#32⟩] }

/-! ## The validator -/

/-- R126, which is R121 to R125 in sequence: the checks in order, each failing one with its verdict, its response and no
other trace. -/
def Obligations.ValRunRule : Prop :=
  FormatZ 0x40#8 .valRun ∧
  ∀ s : State, s.len.toNat ≤ s.cfg.bufsz.toNat →
    let g := s.footerAt
    let c := crc32 s.payload
    exec .valRun s = .next (
      if s.len.toNat < 20 then
        { s with verdict := 0x10#8, responses := s.responses ++ [⟨0x10#8, s.len⟩] }
      else if s.tag ≠ [0x44#8, 0x56#8, 0x50#8, 0x4C#8] then
        { s with verdict := 0x11#8,
                 responses := s.responses ++ [⟨0x11#8, BitVec.ofNat 32 (s.memRead (s.len.toNat - 4) 4)⟩] }
      else if s.len.toNat - 20 ≠ g.comp.toNat then
        { s with f := g, verdict := 0x12#8,
                 responses := s.responses ++ [⟨0x12#8, BitVec.ofNat 32 (s.len.toNat - 20)⟩] }
      else if c ≠ g.csum then
        { s with f := g, crcAcc := c ^^^ 0xFFFFFFFF#32, verdict := 0x13#8, responses := s.responses ++ [⟨0x13#8, c⟩] }
      else if g.kind = 0#32 then
        if g.orig ≠ g.comp then
          { s with f := g, crcAcc := c ^^^ 0xFFFFFFFF#32, verdict := 0x14#8,
                   responses := s.responses ++ [⟨0x14#8, g.orig⟩] }
        else
          { s with f := g, crcAcc := c ^^^ 0xFFFFFFFF#32, verdict := 0x01#8,
                   responses := s.responses ++ [⟨0x00#8, g.orig⟩] }
      else if g.kind = 1#32 ∨ g.kind = 2#32 then
        { s with f := g, crcAcc := c ^^^ 0xFFFFFFFF#32, verdict := 0x02#8,
                 responses := s.responses ++ [⟨0x00#8, g.orig⟩] }
      else
        { s with f := g, crcAcc := c ^^^ 0xFFFFFFFF#32, verdict := 0x15#8,
                 responses := s.responses ++ [⟨0x15#8, g.kind⟩] })

/-- R126: the response and the verdict of `VAL.RUN` are a function of `BUF[0 : LEN]` alone, and running it again gives the
same response and the same state. -/
def Obligations.ValRunReadsOnlyTheContainerAndIsIdempotent : Prop :=
  (∀ s t s' : State, s.SameContainer t → exec .valRun s = .next s' →
    ∃ t' r, exec .valRun t = .next t' ∧ s'.responses = s.responses ++ [r] ∧ t'.responses = t.responses ++ [r] ∧
      s'.verdict = t'.verdict) ∧
  ∀ s t : State, exec .valRun s = .next t →
    ∃ r, t.responses = s.responses ++ [r] ∧ exec .valRun t = .next { t with responses := t.responses ++ [r] }

/-- R127: `E_GATE` without a passing verdict, then `E_RANGE` outside the payload, then the byte. -/
def Obligations.PayRdRule : Prop :=
  FormatW 0x41#8 .payRd ∧
  (∀ (v : Word) (s : State), s.verdict ≠ 0x01#8 → s.verdict ≠ 0x02#8 →
    exec (.payRd v) s = .next { s with responses := s.responses ++ [⟨0x04#8, 0#32⟩] }) ∧
  (∀ (v : Word) (s : State), (s.verdict = 0x01#8 ∨ s.verdict = 0x02#8) → s.len.toNat - 20 ≤ v.toNat →
    exec (.payRd v) s = .next { s with responses := s.responses ++ [⟨0x03#8, 0#32⟩] }) ∧
  ∀ (v : Word) (s : State), (s.verdict = 0x01#8 ∨ s.verdict = 0x02#8) → s.len.toNat ≤ s.cfg.bufsz.toNat →
    v.toNat < s.len.toNat - 20 →
    exec (.payRd v) s = .next
      { s with responses := s.responses ++ [⟨0x00#8, (s.buf.read v.toNat).setWidth 32⟩] }

/-- R21 with R127: `PAY.RD` answers `OK` only where the container has passed and the index is below `F_COMP`, and then with
that payload byte. -/
def Obligations.PayRdReleasesOnlyPassedPayload : Prop :=
  ∀ (v : Word) (s t : State) (d : Word), s.PassInv → exec (.payRd v) s = .next t →
    t.responses = s.responses ++ [⟨0x00#8, d⟩] →
    s.Passed ∧ v.toNat < s.f.comp.toNat ∧ s.payload[v.toNat]? = some (d.setWidth 8) ∧ d.toNat < 256

/-- R129: after a passing `VAL.RUN`, `PAY.RD 0` to `PAY.RD F_COMP-1` answer the payload, byte by byte. -/
def Obligations.PayloadIsReadOutWhole : Prop :=
  ∀ s t : State, s.len.toNat ≤ s.cfg.bufsz.toNat → exec .valRun s = .next t → t.gate = true →
    performAll ((List.range t.f.comp.toNat).map fun k => .payRd (BitVec.ofNat 32 k)) t = .next
      { t with responses := t.responses ++ s.payload.map fun x => ⟨0x00#8, x.setWidth 32⟩ }

/-- R128 (ii): after a pass, changing exactly one payload byte, in any bits, makes `VAL.RUN` answer `E_CSUM`. -/
def Obligations.OnePayloadByteChangeIsCaught : Prop :=
  ∀ (s t s' : State) (a : Nat), exec .valRun s = .next t → t.gate = true →
    s'.cfg = s.cfg → s'.len = s.len → a < s.len.toNat - 20 → s'.buf.read a ≠ s.buf.read a →
    (∀ x, x ≠ a → s'.buf.read x = s.buf.read x) →
    ∃ t' c, exec .valRun s' = .next t' ∧ t'.responses = s'.responses ++ [⟨0x13#8, c⟩] ∧ t'.verdict = 0x13#8

/-- R171: for kinds 1 and 2 no check relates `originalSize` to anything: after a pass, any other four bytes in its place
pass as well, and are what is answered. -/
def Obligations.OriginalSizeIsUncheckedForLz4 : Prop :=
  ∀ s t s' : State, exec .valRun s = .next t → t.verdict = 0x02#8 → s'.cfg = s.cfg → s'.len = s.len →
    (∀ x, x < s.len.toNat - 20 ∨ s.len.toNat - 16 ≤ x → s'.buf.read x = s.buf.read x) →
    ∃ t', exec .valRun s' = .next t' ∧ t'.verdict = 0x02#8 ∧ t'.f = { t.f with orig := s'.footerAt.orig } ∧
      t'.responses = s'.responses ++ [⟨0x00#8, s'.footerAt.orig⟩]

/-- R162, R103, R126: a container made of a payload and the encoded footer of its own length and checksum, loaded into an
empty buffer, passes: stored when the kind is 0 and the sizes agree, LZ4 when the kind is 1 or 2. -/
def Obligations.BuiltContainerPasses : Prop :=
  ∀ (p : List Byte) (o k : Word) (s : State), s.Wf → s.len = 0#32 → p.length + 20 ≤ s.cfg.bufsz.toNat →
    (k = 0#32 ∧ o.toNat = p.length ∨ k = 1#32 ∨ k = 2#32) →
    ∃ t u, performAll (bufLoad (p ++ encodeFooter ⟨o, BitVec.ofNat 32 p.length, crc32 p, k⟩)) s = .next t ∧
      exec .valRun t = .next u ∧ u.responses = t.responses ++ [⟨0x00#8, o⟩] ∧
      u.verdict = (if k = 0#32 then 0x01#8 else 0x02#8) ∧
      u.f = ⟨o, BitVec.ofNat 32 p.length, crc32 p, k⟩ ∧ u.payload = p

/-! ## Over all commands -/

/-- R14, R16, R3: the state invariants hold after reset, at every capacity in the parameter's range. -/
def Obligations.ResetMeetsInvariants : Prop :=
  (∀ c : Config, c.wf = true → (State.resetFor c).Wf) ∧ (∀ c : Config, (State.resetFor c).PassInv) ∧
  (∀ c : Config, (State.resetFor c).VerdictInv) ∧ State.reset.Wf

/-- R14, R16, R32: every step keeps the state invariant. -/
def Obligations.StepKeepsWf : Prop :=
  ∀ s t : State, s.Wf → step s = .next t → t.Wf

/-- R21: every step keeps the pass invariant. -/
def Obligations.StepKeepsPassInvariant : Prop :=
  ∀ s t : State, s.Wf → s.PassInv → step s = .next t → t.PassInv

/-- R16: every step keeps the verdict register true: whatever it holds, passing or failing, it is the outcome of the
container as it stands after the step, or `NONE`. -/
def Obligations.StepKeepsVerdictInvariant : Prop :=
  ∀ s t : State, s.VerdictInv → step s = .next t → t.VerdictInv

/-- R14, R16, R21: whatever words and reset events the host presents after a reset, at any capacity, every state a run
goes through meets the invariants. -/
def Obligations.EveryReachableStateMeetsTheInvariants : Prop :=
  ∀ (c : Config) (es : List Event) (n : Nat) (t : State), c.wf = true →
    Host.Core.run Sys2Proof.core n { State.resetFor c with input := es } = .next t → t.Wf ∧ t.PassInv ∧ t.VerdictInv

/-- R8 item 5, R14, R31: a step stops with a fault only where `LEN > BUFSZ`, and is never refused. That such a state faults
at all is the model's choice (log entry 5). -/
def Obligations.StepNeverStopsWithinCapacity : Prop :=
  ∀ s : State, s.len.toNat ≤ s.cfg.bufsz.toNat → ∃ t, step s = .next t

/-- R19: the complete write table. -/
def Obligations.WriteTable : Prop :=
  ∀ (i : Instr) (s t : State), exec i s = .next t →
    t.cfg = s.cfg ∧ t.input = s.input ∧
    t.crcAcc = (match i with
      | .sysRst => 0xFFFFFFFF#32
      | .crcInit => 0xFFFFFFFF#32
      | .crcUpd b => crcStep s.crcAcc b
      | .valRun => if s.SizeOk then crcRaw s.payload else s.crcAcc
      | _ => s.crcAcc) ∧
    t.buf = (match i with
      | .bufPush b => if s.len = s.cfg.bufsz then s.buf else s.buf.write s.len.toNat b
      | _ => s.buf) ∧
    t.len = (match i with
      | .sysRst => 0#32
      | .bufClr => 0#32
      | .bufPush _ => if s.len = s.cfg.bufsz then s.len else s.len + 1#32
      | _ => s.len) ∧
    t.f = (match i with
      | .sysRst => ⟨0#32, 0#32, 0#32, 0#32⟩
      | .ftrParse => if s.TagOk then s.footerAt else s.f
      | .ftrWrorig v => { s.f with orig := v }
      | .ftrWrcomp v => { s.f with comp := v }
      | .ftrWrcsum v => { s.f with csum := v }
      | .ftrWrkind v => { s.f with kind := v }
      | .valRun => if s.TagOk then s.footerAt else s.f
      | _ => s.f) ∧
    (match i with
      | .sysRst => t.verdict = 0x00#8
      | .bufClr => t.verdict = 0x00#8
      | .bufPush _ => t.verdict = if s.len = s.cfg.bufsz then s.verdict else 0x00#8
      | .ftrParse => t.verdict = if s.TagOk then 0x00#8 else s.verdict
      | .ftrWrorig _ => t.verdict = 0x00#8
      | .ftrWrcomp _ => t.verdict = 0x00#8
      | .ftrWrcsum _ => t.verdict = 0x00#8
      | .ftrWrkind _ => t.verdict = 0x00#8
      | .valRun => t.verdict = s.outcome
      | _ => t.verdict = s.verdict)

/-- R32, R34: every byte of `BUF` is unchanged by every command, but the one byte at index `LEN` that a `BUF.PUSH` into a
buffer that is not full writes. -/
def Obligations.OnlyThePushedByteChanges : Prop :=
  ∀ (i : Instr) (s t : State) (a : Nat), s.buf.wf = true → exec i s = .next t →
    (a ≠ s.len.toNat ∨ s.len = s.cfg.bufsz ∨ ∀ b, i ≠ .bufPush b) → t.buf.read a = s.buf.read a

/-- R20: every command but `VAL.RUN` that writes `BUF`, `LEN` or an `F` register drops the verdict, and the two that write
only `CRC_ACC` keep it. -/
def Obligations.VerdictInvalidation : Prop :=
  (∀ (i : Instr) (s t : State), i ≠ .valRun → exec i s = .next t →
    (t.buf ≠ s.buf ∨ t.len ≠ s.len ∨ t.f ≠ s.f) → t.verdict = 0x00#8) ∧
  (∀ (i : Instr) (s t : State) (d : Word), exec i s = .next t → t.responses = s.responses ++ [⟨0x00#8, d⟩] →
    (i = .bufClr ∨ (∃ b, i = .bufPush b) ∨ i = .ftrParse ∨ (∃ v, i = .ftrWrorig v) ∨ (∃ v, i = .ftrWrcomp v) ∨
      (∃ v, i = .ftrWrcsum v) ∨ (∃ v, i = .ftrWrkind v) ∨ i = .sysRst) → t.verdict = 0x00#8) ∧
  ∀ (b : Byte) (s t : State), exec .crcInit s = .next t ∨ exec (.crcUpd b) s = .next t → t.verdict = s.verdict

/-- R141: an illegal word, and a command other than `VAL.RUN` that answers an error, change nothing; a failing `VAL.RUN` writes its code to
`VERDICT`, the `F` registers exactly when the magic check passed, `CRC_ACC` exactly when the size check passed, and
neither `BUF` nor `LEN`. -/
def Obligations.StateAfterAnError : Prop :=
  (∀ (s : State) (cw : CmdWord) (rest : List Event) (e : Illegal), s.input = .command cw :: rest → decode cw = .error e →
    ∃ r, step s = .next { s with input := rest, responses := s.responses ++ [r] } ∧ r.code ≠ 0x00#8) ∧
  (∀ (i : Instr) (s t : State) (r : Response), i ≠ .valRun → exec i s = .next t →
    t.responses = s.responses ++ [r] → r.code ≠ 0x00#8 → t = { s with responses := s.responses ++ [r] }) ∧
  ∀ (s t : State) (r : Response), exec .valRun s = .next t → t.responses = s.responses ++ [r] → r.code ≠ 0x00#8 →
    t = { s with
          f := if s.TagOk then s.footerAt else s.f
          crcAcc := if s.SizeOk then crcRaw s.payload else s.crcAcc
          verdict := r.code
          responses := s.responses ++ [r] }

/-- R140: the codes that are answered, by which command, for what cause and with what data. -/
def Obligations.ResponseCodes : Prop :=
  (∀ (s t : State) (cw : CmdWord) (rest : List Event), s.input = .command cw :: rest → step s = .next t →
    ((∃ d, t.responses = s.responses ++ [⟨0x01#8, d⟩]) ↔ ∃ e, decode cw = .error e) ∧
    ∀ d, t.responses = s.responses ++ [⟨0x01#8, d⟩] → d = 0#32) ∧
  ∀ (i : Instr) (s t : State) (r : Response), exec i s = .next t → t.responses = s.responses ++ [r] →
    r.code ∈ codeValues ∧ r.code ≠ 0x01#8 ∧
    (r.code = 0x02#8 ↔ (∃ b, i = .bufPush b) ∧ s.len = s.cfg.bufsz) ∧ (r.code = 0x02#8 → r.data = 0#32) ∧
    (r.code = 0x03#8 ↔ (∃ b, i = .ftrEncb b ∧ 20 ≤ b.toNat) ∨
      ∃ v, i = .payRd v ∧ s.gate = true ∧ s.len.toNat - 20 ≤ v.toNat) ∧ (r.code = 0x03#8 → r.data = 0#32) ∧
    (r.code = 0x04#8 ↔ (∃ v, i = .payRd v) ∧ s.gate = false) ∧ (r.code = 0x04#8 → r.data = 0#32) ∧
    (r.code = 0x10#8 ↔ (i = .ftrParse ∨ i = .valRun) ∧ s.len.toNat < 20) ∧ (r.code = 0x10#8 → r.data = s.len) ∧
    (r.code = 0x11#8 ↔ (i = .ftrParse ∨ i = .valRun) ∧ 20 ≤ s.len.toNat ∧ ¬ s.TagOk) ∧
    (r.code = 0x11#8 → r.data.toNat = s.memRead (s.len.toNat - 4) 4) ∧
    (r.code = 0x12#8 ↔ i = .valRun ∧ s.TagOk ∧ ¬ s.SizeOk) ∧ (r.code = 0x12#8 → r.data.toNat = s.len.toNat - 20) ∧
    (r.code = 0x13#8 ↔ i = .valRun ∧ s.SizeOk ∧ crc32 s.payload ≠ s.footerAt.csum) ∧
    (r.code = 0x13#8 → r.data = crc32 s.payload) ∧
    (r.code = 0x14#8 ↔ i = .valRun ∧ s.SizeOk ∧ crc32 s.payload = s.footerAt.csum ∧ t.f.kind = 0#32 ∧
      t.f.orig ≠ t.f.comp) ∧ (r.code = 0x14#8 → r.data = t.f.orig) ∧
    (r.code = 0x15#8 ↔ i = .valRun ∧ s.SizeOk ∧ crc32 s.payload = s.footerAt.csum ∧ 3 ≤ t.f.kind.toNat) ∧
    (r.code = 0x15#8 → r.data = t.f.kind)

/-- R13, R43: bytes of `BUF` at indexes `>= LEN` are unobservable: two states that differ only there take the same step,
with the same responses, to states that again differ only there. -/
def Obligations.StaleBytesAreUnobservable : Prop :=
  ∀ s t s' : State, s.buf.wf = true → t.buf.wf = true → s.SameButStale t → step s = .next s' →
    ∃ t', step t = .next t' ∧ s'.SameButStale t' ∧ s'.buf.wf = true ∧ t'.buf.wf = true
end

