-- ==== Sys2Proof/Laws/Decode.lean ====
section
/-! SUPPORT. The fields and masks of a word made of an opcode and an argument (R52). -/

namespace Sys2Proof

theorem getLsbD_word (op : Byte) (arg : Word) (i : Nat) :
    BitVec.getLsbD (w := 40) (op ++ arg) i = if i < 32 then arg.getLsbD i else op.getLsbD (i - 32) :=
  BitVec.getLsbD_append

@[simp] theorem opField_word (op : Byte) (arg : Word) : opField (op ++ arg) = op := by
  unfold opField
  ext i hi
  rw [BitVec.getElem_extractLsb', getLsbD_word, if_neg (by omega), Nat.add_sub_cancel_left,
    BitVec.getLsbD_eq_getElem hi]

@[simp] theorem argField_word (op : Byte) (arg : Word) : argField (op ++ arg) = arg := by
  unfold argField
  ext i hi
  rw [BitVec.getElem_extractLsb', getLsbD_word, Nat.zero_add, if_pos hi, BitVec.getLsbD_eq_getElem hi]

/-- Every word is its two fields. -/
theorem word_of_fields (cw : CmdWord) : opField cw ++ argField cw = cw := by
  apply BitVec.eq_of_getLsbD_eq
  intro i hi
  rw [getLsbD_word]
  unfold opField argField
  split
  · next h => simp [h]
  · next h => simp [show i - 32 < 8 by omega, show 32 + (i - 32) = i by omega]

/-- The reserved bits of a zero-extended byte are zero (R54). -/
@[simp] theorem reservedBits_byte (b : Byte) : (BitVec.setWidth 32 b).extractLsb' 8 24 = 0#24 := by
  ext i hi
  simp

/-- The operand of a zero-extended byte is the byte (R54). -/
@[simp] theorem operandBits_byte (b : Byte) : (BitVec.setWidth 32 b).extractLsb' 0 8 = b := by
  ext i hi
  simp [hi]
  omega

/-- An argument with reserved bits zero is a zero-extended byte (R54). -/
theorem byte_of_reservedBits {arg : Word} (h : arg.extractLsb' 8 24 = 0#24) :
    (arg.extractLsb' 0 8).setWidth 32 = arg := by
  ext i hi
  by_cases h8 : i < 8
  · simp [h8, BitVec.getLsbD_eq_getElem hi]
  · have hb := congrArg (fun v => BitVec.getLsbD v (i - 8)) h
    simp [show i - 8 < 24 by omega, show 8 + (i - 8) = i by omega] at hb
    rw [BitVec.getLsbD_eq_getElem hi] at hb
    simp [h8, hb]

/-- The mask of format Z keeps the word (R53). -/
theorem word_and_maskZ (cw : CmdWord) : cw &&& maskZ = cw := by
  rw [show maskZ = BitVec.allOnes 40 from rfl, BitVec.and_allOnes]

/-- The mask of format W keeps the opcode (R55). -/
theorem word_and_maskW (op : Byte) (arg : Word) : (op ++ arg) &&& maskW = op ++ 0#32 := by
  apply BitVec.eq_of_getLsbD_eq
  intro i hi
  rw [BitVec.getLsbD_and, getLsbD_word, getLsbD_word]
  unfold maskW
  interval_cases i <;> simp

/-- The mask of format B keeps the opcode of a word whose argument is a byte (R54). -/
theorem word_and_maskB (op b : Byte) : (op ++ BitVec.setWidth 32 b) &&& maskB = op ++ 0#32 := by
  apply BitVec.eq_of_getLsbD_eq
  intro i hi
  rw [BitVec.getLsbD_and, getLsbD_word, getLsbD_word]
  unfold maskB
  interval_cases i <;> simp

end Sys2Proof
end

