-- ==== Sys2Proof/Laws/Memory.lean ====
section
/-! SUPPORT. The laws of the container buffer: a read after a write, the one form of the cells, and byte sequences. -/

namespace Sys2Proof.Machine

/-! ## The cells stay in their one form -/

theorem Memory.wfFrom_mono {lo hi : Nat} (h : lo ≤ hi) : ∀ {m : Memory}, Memory.wfFrom hi m = true → Memory.wfFrom lo m = true
  | [], _ => rfl
  | (a, b) :: m, hm => by
    simp only [Memory.wfFrom, Bool.and_eq_true, decide_eq_true_eq] at hm ⊢
    exact ⟨le_trans h hm.1, hm.2⟩

theorem Memory.wfFrom_consCell {lo a : Nat} {m : Memory} (b : Byte) (ha : lo ≤ a)
    (hm : Memory.wfFrom (a + 1) m = true) : Memory.wfFrom lo (Memory.consCell a b m) = true := by
  unfold Memory.consCell
  split
  · exact Memory.wfFrom_mono (by omega) hm
  · simp_all [Memory.wfFrom]

theorem Memory.wfFrom_write (b : Byte) :
    ∀ {lo a : Nat} {m : Memory}, lo ≤ a → Memory.wfFrom lo m = true → Memory.wfFrom lo (m.write a b) = true
  | lo, a, [], ha, _ => Memory.wfFrom_consCell b ha rfl
  | lo, a, (x, y) :: m, ha, hm => by
    simp only [Memory.wfFrom, Bool.and_eq_true, decide_eq_true_eq] at hm
    unfold Memory.write
    split
    · exact Memory.wfFrom_consCell b ha (by simp_all [Memory.wfFrom])
    · split
      · next h => subst h; exact Memory.wfFrom_consCell b ha hm.2.2
      · simp only [Memory.wfFrom, Bool.and_eq_true, decide_eq_true_eq]
        exact ⟨hm.1, hm.2.1, Memory.wfFrom_write b (by omega) hm.2.2⟩

/-- Every write keeps the one form of the buffer. -/
theorem Memory.wf_write {m : Memory} (a : Nat) (b : Byte) (h : m.wf = true) : (m.write a b).wf = true :=
  Memory.wfFrom_write b (Nat.zero_le a) h

theorem Memory.wf_nil : Memory.wf [] = true := rfl

/-- The buffer of the state after reset is in its one form. -/
theorem State.resetFor_buf_wf (c : Config) : (State.resetFor c).buf.wf = true := rfl

/-- A write puts a cell at no other index than its own. -/
theorem Memory.mem_write {a : Nat} {b : Byte} {c : Host.Cell} :
    ∀ {m : Memory}, c ∈ m.write a b → c.1 = a ∨ c ∈ m
  | [], h => by
    unfold Memory.write Memory.consCell at h
    split at h <;> simp_all
  | (x, y) :: m, h => by
    unfold Memory.write at h
    split at h
    · unfold Memory.consCell at h
      split at h <;> simp_all
      rcases h with rfl | h <;> simp_all
    · split at h
      · unfold Memory.consCell at h
        split at h <;> simp_all
        rcases h with rfl | h <;> simp_all
      · rcases List.mem_cons.mp h with rfl | h
        · simp
        · rcases Memory.mem_write h with h | h <;> simp_all

/-! ## Read after write -/

theorem Memory.read_of_lt {a : Nat} : ∀ {m : Memory}, Memory.wfFrom (a + 1) m = true → m.read a = Memory.unlisted
  | [], _ => rfl
  | (x, y) :: m, h => by
    simp only [Memory.wfFrom, Bool.and_eq_true, decide_eq_true_eq] at h
    unfold Memory.read
    rw [if_neg (by omega)]
    exact Memory.read_of_lt (Memory.wfFrom_mono (by omega) h.2.2)

theorem Memory.read_consCell {a : Nat} {b : Byte} {m : Memory} (h : Memory.wfFrom (a + 1) m = true) (x : Nat) :
    (Memory.consCell a b m).read x = if x = a then b else m.read x := by
  unfold Memory.consCell
  split
  · next hb =>
    split
    · next hx => subst hx; rw [Memory.read_of_lt h, hb]
    · rfl
  · simp only [Memory.read, eq_comm]

/-- Reading a byte after a write gives the byte written at its own index, and what stood there at any other. -/
theorem Memory.read_write (b : Byte) (x : Nat) : ∀ {lo a : Nat} {m : Memory}, Memory.wfFrom lo m = true →
    (m.write a b).read x = if x = a then b else m.read x
  | lo, a, [], _ => Memory.read_consCell rfl x
  | lo, a, (y, z) :: m, h => by
    simp only [Memory.wfFrom, Bool.and_eq_true, decide_eq_true_eq] at h
    unfold Memory.write
    split
    · exact Memory.read_consCell (by simp_all [Memory.wfFrom]) x
    · split
      · next hay =>
        subst hay
        rw [Memory.read_consCell h.2.2]
        by_cases hx : x = a
        · simp [hx]
        · simp [hx, Memory.read, Ne.symm hx]
      · next hay =>
        simp only [Memory.read, Memory.read_write b x h.2.2]
        by_cases hy : y = x
        · subst hy; simp [Ne.symm hay]
        · simp [hy]

/-- Read after write, for a buffer in its one form. -/
theorem Memory.read_write_of_wf {m : Memory} (h : m.wf = true) (a x : Nat) (b : Byte) :
    (m.write a b).read x = if x = a then b else m.read x :=
  Memory.read_write b x h

/-! ## Byte sequences -/

@[simp] theorem Memory.slice_zero (m : Memory) (a : Nat) : m.slice a 0 = [] := rfl

theorem Memory.slice_succ (m : Memory) (a n : Nat) : m.slice a (n + 1) = m.read a :: m.slice (a + 1) n := rfl

@[simp] theorem Memory.length_slice (m : Memory) : ∀ a n, (m.slice a n).length = n
  | _, 0 => rfl
  | a, n + 1 => by simp [Memory.slice, Memory.length_slice m (a + 1) n]

/-- A slice is made of single reads. -/
theorem Memory.getElem?_slice (m : Memory) : ∀ (a n k : Nat), k < n → (m.slice a n)[k]? = some (m.read (a + k))
  | a, n + 1, 0, _ => by simp [Memory.slice]
  | a, n + 1, k + 1, h => by
    rw [Memory.slice_succ, List.getElem?_cons_succ, Memory.getElem?_slice m (a + 1) n k (by omega)]
    congr 2
    omega

/-- Two buffers that read alike on a range have the same slice there. -/
theorem Memory.slice_congr {m m' : Memory} : ∀ (a n : Nat), (∀ x, a ≤ x → x < a + n → m.read x = m'.read x) →
    m.slice a n = m'.slice a n
  | _, 0, _ => rfl
  | a, n + 1, h => by
    rw [Memory.slice_succ, Memory.slice_succ, h a (le_refl a) (by omega),
      Memory.slice_congr (a + 1) n fun x hx hx' => h x (by omega) (by omega)]

/-- A slice in two parts. -/
theorem Memory.slice_append (m : Memory) : ∀ (a j k : Nat), m.slice a (j + k) = m.slice a j ++ m.slice (a + j) k
  | a, 0, k => by simp
  | a, j + 1, k => by
    rw [show j + 1 + k = (j + k) + 1 by omega, Memory.slice_succ, Memory.slice_succ, Memory.slice_append m (a + 1) j k,
      show a + 1 + j = a + (j + 1) by omega]
    rfl

theorem Memory.drop_slice (m : Memory) (a j k : Nat) : (m.slice a (j + k)).drop j = m.slice (a + j) k := by
  rw [Memory.slice_append, List.drop_left' (Memory.length_slice m a j)]

theorem Memory.take_slice (m : Memory) (a j k : Nat) : (m.slice a (j + k)).take j = m.slice a j := by
  rw [Memory.slice_append, List.take_left' (Memory.length_slice m a j)]

/-- The number `n` bytes spell is below `256 ^ n`. -/
theorem leValue_lt : ∀ bs : List Byte, leValue bs < 256 ^ bs.length
  | [] => by simp [leValue]
  | b :: bs => by
    have := leValue_lt bs
    have := b.isLt
    simp only [leValue, List.length_cons, pow_succ]
    omega

end Sys2Proof.Machine
end

