-- ==== Sys2Proof/Laws/State.lean ====
section
/-! SUPPORT. What each named update of the state leaves in each field, so that no proof unfolds a record update. -/

namespace Sys2Proof.Machine

variable (s : State)

@[simp] theorem State.setF_cfg (f : FooterData) : (s.setF f).cfg = s.cfg := rfl
@[simp] theorem State.setF_f (f : FooterData) : (s.setF f).f = f := rfl
@[simp] theorem State.setF_crcAcc (f : FooterData) : (s.setF f).crcAcc = s.crcAcc := rfl
@[simp] theorem State.setF_buf (f : FooterData) : (s.setF f).buf = s.buf := rfl
@[simp] theorem State.setF_len (f : FooterData) : (s.setF f).len = s.len := rfl
@[simp] theorem State.setF_verdict (f : FooterData) : (s.setF f).verdict = s.verdict := rfl
@[simp] theorem State.setF_input (f : FooterData) : (s.setF f).input = s.input := rfl
@[simp] theorem State.setF_responses (f : FooterData) : (s.setF f).responses = s.responses := rfl

@[simp] theorem State.setCrcAcc_cfg (a : Word) : (s.setCrcAcc a).cfg = s.cfg := rfl
@[simp] theorem State.setCrcAcc_f (a : Word) : (s.setCrcAcc a).f = s.f := rfl
@[simp] theorem State.setCrcAcc_crcAcc (a : Word) : (s.setCrcAcc a).crcAcc = a := rfl
@[simp] theorem State.setCrcAcc_buf (a : Word) : (s.setCrcAcc a).buf = s.buf := rfl
@[simp] theorem State.setCrcAcc_len (a : Word) : (s.setCrcAcc a).len = s.len := rfl
@[simp] theorem State.setCrcAcc_verdict (a : Word) : (s.setCrcAcc a).verdict = s.verdict := rfl
@[simp] theorem State.setCrcAcc_input (a : Word) : (s.setCrcAcc a).input = s.input := rfl
@[simp] theorem State.setCrcAcc_responses (a : Word) : (s.setCrcAcc a).responses = s.responses := rfl

@[simp] theorem State.setBuf_cfg (m : Memory) : (s.setBuf m).cfg = s.cfg := rfl
@[simp] theorem State.setBuf_f (m : Memory) : (s.setBuf m).f = s.f := rfl
@[simp] theorem State.setBuf_crcAcc (m : Memory) : (s.setBuf m).crcAcc = s.crcAcc := rfl
@[simp] theorem State.setBuf_buf (m : Memory) : (s.setBuf m).buf = m := rfl
@[simp] theorem State.setBuf_len (m : Memory) : (s.setBuf m).len = s.len := rfl
@[simp] theorem State.setBuf_verdict (m : Memory) : (s.setBuf m).verdict = s.verdict := rfl
@[simp] theorem State.setBuf_input (m : Memory) : (s.setBuf m).input = s.input := rfl
@[simp] theorem State.setBuf_responses (m : Memory) : (s.setBuf m).responses = s.responses := rfl

@[simp] theorem State.setLen_cfg (n : Word) : (s.setLen n).cfg = s.cfg := rfl
@[simp] theorem State.setLen_f (n : Word) : (s.setLen n).f = s.f := rfl
@[simp] theorem State.setLen_crcAcc (n : Word) : (s.setLen n).crcAcc = s.crcAcc := rfl
@[simp] theorem State.setLen_buf (n : Word) : (s.setLen n).buf = s.buf := rfl
@[simp] theorem State.setLen_len (n : Word) : (s.setLen n).len = n := rfl
@[simp] theorem State.setLen_verdict (n : Word) : (s.setLen n).verdict = s.verdict := rfl
@[simp] theorem State.setLen_input (n : Word) : (s.setLen n).input = s.input := rfl
@[simp] theorem State.setLen_responses (n : Word) : (s.setLen n).responses = s.responses := rfl

@[simp] theorem State.setVerdict_cfg (v : Verdict) : (s.setVerdict v).cfg = s.cfg := rfl
@[simp] theorem State.setVerdict_f (v : Verdict) : (s.setVerdict v).f = s.f := rfl
@[simp] theorem State.setVerdict_crcAcc (v : Verdict) : (s.setVerdict v).crcAcc = s.crcAcc := rfl
@[simp] theorem State.setVerdict_buf (v : Verdict) : (s.setVerdict v).buf = s.buf := rfl
@[simp] theorem State.setVerdict_len (v : Verdict) : (s.setVerdict v).len = s.len := rfl
@[simp] theorem State.setVerdict_verdict (v : Verdict) : (s.setVerdict v).verdict = v.value := rfl
@[simp] theorem State.setVerdict_input (v : Verdict) : (s.setVerdict v).input = s.input := rfl
@[simp] theorem State.setVerdict_responses (v : Verdict) : (s.setVerdict v).responses = s.responses := rfl

@[simp] theorem State.setInput_cfg (l : List Event) : (s.setInput l).cfg = s.cfg := rfl
@[simp] theorem State.setInput_f (l : List Event) : (s.setInput l).f = s.f := rfl
@[simp] theorem State.setInput_crcAcc (l : List Event) : (s.setInput l).crcAcc = s.crcAcc := rfl
@[simp] theorem State.setInput_buf (l : List Event) : (s.setInput l).buf = s.buf := rfl
@[simp] theorem State.setInput_len (l : List Event) : (s.setInput l).len = s.len := rfl
@[simp] theorem State.setInput_verdict (l : List Event) : (s.setInput l).verdict = s.verdict := rfl
@[simp] theorem State.setInput_input (l : List Event) : (s.setInput l).input = l := rfl
@[simp] theorem State.setInput_responses (l : List Event) : (s.setInput l).responses = s.responses := rfl

@[simp] theorem State.answer_cfg (c : Code) (d : Word) : (s.answer c d).cfg = s.cfg := rfl
@[simp] theorem State.answer_f (c : Code) (d : Word) : (s.answer c d).f = s.f := rfl
@[simp] theorem State.answer_crcAcc (c : Code) (d : Word) : (s.answer c d).crcAcc = s.crcAcc := rfl
@[simp] theorem State.answer_buf (c : Code) (d : Word) : (s.answer c d).buf = s.buf := rfl
@[simp] theorem State.answer_len (c : Code) (d : Word) : (s.answer c d).len = s.len := rfl
@[simp] theorem State.answer_verdict (c : Code) (d : Word) : (s.answer c d).verdict = s.verdict := rfl
@[simp] theorem State.answer_input (c : Code) (d : Word) : (s.answer c d).input = s.input := rfl
@[simp] theorem State.answer_responses (c : Code) (d : Word) : (s.answer c d).responses = s.responses ++ [⟨c.value, d⟩] := rfl

@[simp] theorem State.resetRegisters_cfg : s.resetRegisters.cfg = s.cfg := rfl
@[simp] theorem State.resetRegisters_f : s.resetRegisters.f = FooterData.zero := rfl
@[simp] theorem State.resetRegisters_crcAcc : s.resetRegisters.crcAcc = 0xFFFFFFFF#32 := rfl
@[simp] theorem State.resetRegisters_buf : s.resetRegisters.buf = s.buf := rfl
@[simp] theorem State.resetRegisters_len : s.resetRegisters.len = 0#32 := rfl
@[simp] theorem State.resetRegisters_verdict : s.resetRegisters.verdict = 0x00#8 := rfl
@[simp] theorem State.resetRegisters_input : s.resetRegisters.input = s.input := rfl
@[simp] theorem State.resetRegisters_responses : s.resetRegisters.responses = s.responses := rfl

variable (c : Config)

@[simp] theorem State.resetFor_cfg : (State.resetFor c).cfg = c := rfl
@[simp] theorem State.resetFor_f : (State.resetFor c).f = FooterData.zero := rfl
@[simp] theorem State.resetFor_crcAcc : (State.resetFor c).crcAcc = 0xFFFFFFFF#32 := rfl
@[simp] theorem State.resetFor_buf : (State.resetFor c).buf = [] := rfl
@[simp] theorem State.resetFor_len : (State.resetFor c).len = 0#32 := rfl
@[simp] theorem State.resetFor_verdict : (State.resetFor c).verdict = 0x00#8 := rfl
@[simp] theorem State.resetFor_input : (State.resetFor c).input = [] := rfl
@[simp] theorem State.resetFor_responses : (State.resetFor c).responses = [] := rfl

@[simp] theorem FooterData.zero_orig : FooterData.zero.orig = 0#32 := rfl
@[simp] theorem FooterData.zero_comp : FooterData.zero.comp = 0#32 := rfl
@[simp] theorem FooterData.zero_csum : FooterData.zero.csum = 0#32 := rfl
@[simp] theorem FooterData.zero_kind : FooterData.zero.kind = 0#32 := rfl

end Sys2Proof.Machine
end

