-- ==== Sys2Proof/Laws/Ops.lean ====
section
/-! SUPPORT. One lemma per shared operation: everything it can do. Proofs cite these and do not unfold the operations. -/

namespace Sys2Proof.Machine

/-! ## Ending a command -/

@[simp] theorem respond_eq (s : State) (c : Code) (d : Word) : respond s c d = .next (s.answer c d) := rfl

@[simp] theorem raise_eq (s : State) (c : Code) (d : Word) : raise s c d = .next (s.answer c d) := rfl

@[simp] theorem judge_eq (s : State) (v : Verdict) (d : Word) :
    judge s v d = .next ((s.setVerdict v).answer v.code d) := rfl

/-- The verdict written is the code answered, or a passing one answered with `OK`. -/
theorem Verdict.value_eq_code (v : Verdict) : v.value = v.code.value ∨ v = .passStored ∨ v = .passLz4 := by
  cases v <;> decide

/-! ## Accesses -/

/-- Inside `BUF`, the bytes are read. -/
theorem State.withBytes_of_le {s : State} {a n : Nat} (h : a + n ≤ s.cfg.bufsz.toNat) (k : List Byte → Result) :
    s.withBytes a n k = k (s.buf.slice a n) := if_pos h

/-- A read goes on with the bytes exactly inside `BUF`. -/
theorem State.withBytes_next {s t : State} {a n : Nat} {k : List Byte → Result} :
    s.withBytes a n k = .next t ↔ a + n ≤ s.cfg.bufsz.toNat ∧ k (s.buf.slice a n) = .next t := by
  unfold State.withBytes
  split <;> simp_all

/-- Inside `BUF`, the byte is written. -/
theorem State.writeByte_of_lt {s : State} {a : Nat} (h : a < s.cfg.bufsz.toNat) (b : Byte) (k : State → Result) :
    s.writeByte a b k = k (s.setBuf (s.buf.write a b)) := if_pos h

/-- A write goes on exactly inside `BUF`. -/
theorem State.writeByte_next {s t : State} {a : Nat} {b : Byte} {k : State → Result} :
    s.writeByte a b k = .next t ↔ a < s.cfg.bufsz.toNat ∧ k (s.setBuf (s.buf.write a b)) = .next t := by
  unfold State.writeByte
  split <;> simp_all

/-! ## The footer codec -/

@[simp] theorem length_le32 (v : Word) : (le32 v).length = 4 := rfl

@[simp] theorem length_encodeFooter (f : FooterData) : (encodeFooter f).length = 20 := rfl

/-- A footer decodes exactly when its tag is the magic, to its four fields. -/
theorem decodeFooter_eq_some {t : List Byte} {f : FooterData} :
    decodeFooter t = some f ↔
      tagOfBytes t = magic ∧ f = ⟨fieldOfBytes t 0, fieldOfBytes t 1, fieldOfBytes t 2, fieldOfBytes t 3⟩ := by
  unfold decodeFooter
  split <;> simp_all [eq_comm]

/-- A footer does not decode exactly when its tag is not the magic. -/
theorem decodeFooter_eq_none {t : List Byte} : decodeFooter t = none ↔ tagOfBytes t ≠ magic := by
  unfold decodeFooter
  split <;> simp_all

/-- Field `k` of a slice of 20 bytes is the four bytes at its place. -/
theorem fieldOfBytes_slice (m : Memory) (a k : Nat) (h : k < 4) :
    fieldOfBytes (m.slice a 20) k = u32OfBytes (m.slice (a + 4 * k) 4) := by
  unfold fieldOfBytes
  rw [show 20 = 4 * k + (4 + (16 - 4 * k)) by omega, Memory.drop_slice, Memory.take_slice]

/-- The tag of a slice of 20 bytes is its last four bytes. -/
theorem tagOfBytes_slice (m : Memory) (a : Nat) : tagOfBytes (m.slice a 20) = m.slice (a + 16) 4 := by
  unfold tagOfBytes
  rw [show 20 = 16 + 4 by omega, Memory.drop_slice]
  exact List.take_of_length_le (by simp)

/-- A field read from four bytes has their number. -/
theorem toNat_u32OfBytes {t : List Byte} (h : t.length = 4) : (u32OfBytes t).toNat = leValue t := by
  have := leValue_lt t
  rw [h] at this
  simpa [u32OfBytes] using this

/-! ## The validator -/

/-- The dispatch on the kind ends in one of its four verdicts (R125). -/
theorem valKind_eq (s : State) :
    (s.f.kind = 0#32 ∧ s.f.orig = s.f.comp ∧ valKind s = judge s .passStored s.f.orig) ∨
    (s.f.kind = 0#32 ∧ s.f.orig ≠ s.f.comp ∧ valKind s = judge s .failStored s.f.orig) ∨
    ((s.f.kind = 1#32 ∨ s.f.kind = 2#32) ∧ valKind s = judge s .passLz4 s.f.orig) ∨
    (s.f.kind ≠ 0#32 ∧ s.f.kind ≠ 1#32 ∧ s.f.kind ≠ 2#32 ∧ valKind s = judge s .failKind s.f.kind) := by
  unfold valKind
  by_cases h0 : s.f.kind = 0#32
  · by_cases h : s.f.orig = s.f.comp <;> simp [h0, h]
  · by_cases h : s.f.kind = 1#32 ∨ s.f.kind = 2#32
    · simp [h0, h]
    · have h' := not_or.mp h
      simp [h0, h'.1, h'.2]

/-- What the dispatch on the kind leaves: the verdict and the response, nothing else. -/
theorem valKind_next {s t : State} (h : valKind s = .next t) :
    ∃ v d, v ≠ Verdict.none ∧ t = (s.setVerdict v).answer v.code d := by
  rcases valKind_eq s with ⟨-, -, e⟩ | ⟨-, -, e⟩ | ⟨-, e⟩ | ⟨-, -, -, e⟩ <;>
    · rw [e, judge_eq, Host.Outcome.next.injEq] at h
      exact ⟨_, _, by decide, h.symm⟩

/-- `PAY.RD` with its index as a plain number. -/
theorem execPayRd_eq (v : Word) (s : State) : execPayRd v s =
    if s.gate then
      if v.toNat + 20 < s.len.toNat then s.withBytes v.toNat 1 fun t => respond s .ok (u32OfBytes t)
      else raise s .eRange 0#32
    else raise s .eGate 0#32 := rfl

/-! ## The ports -/

theorem State.takeEvent_nil {s : State} (h : s.input = []) : s.takeEvent = none := by
  simp [State.takeEvent, h]

theorem State.takeEvent_cons {s : State} {e : Event} {rest : List Event} (h : s.input = e :: rest) :
    s.takeEvent = some (e, s.setInput rest) := by
  simp [State.takeEvent, h]

end Sys2Proof.Machine
end

