-- ==== Sys2Proof/Laws/Exec.lean ====
section
/-! SUPPORT. What each command that can answer an error can do, once: if it answers a next state, then one of these cases
holds. The other commands (but `VAL.RUN`) have one case only, which is their definition. -/

namespace Sys2Proof.Machine

/-- The footer bytes of a container decode to the fields of its footer, exactly where its tag is the magic. -/
theorem decodeFooter_slice (s : State) (h : 20 ≤ s.len.toNat) :
    decodeFooter (s.buf.slice (s.len.toNat - 20) 20) = if s.tag = magic then some s.footerAt else none := by
  unfold decodeFooter
  rw [tagOfBytes_slice, show s.len.toNat - 20 + 16 = s.len.toNat - 4 by omega]
  simp only [fieldOfBytes_slice _ _ _ (show 0 < 4 by omega), fieldOfBytes_slice _ _ _ (show 1 < 4 by omega),
    fieldOfBytes_slice _ _ _ (show 2 < 4 by omega), fieldOfBytes_slice _ _ _ (show 3 < 4 by omega)]
  rw [show s.len.toNat - 20 + 4 * 0 = s.len.toNat - 20 by omega,
    show s.len.toNat - 20 + 4 * 1 = s.len.toNat - 16 by omega,
    show s.len.toNat - 20 + 4 * 2 = s.len.toNat - 12 by omega,
    show s.len.toNat - 20 + 4 * 3 = s.len.toNat - 8 by omega]
  rfl

/-- Four bytes read as a word are the number `MemRead` gives. -/
theorem toNat_memRead_four (s : State) (a : Nat) : (BitVec.ofNat 32 (s.memRead a 4)).toNat = s.memRead a 4 :=
  toNat_u32OfBytes (by simp)

/-- `BUF.PUSH`: the buffer is full, or the byte is appended. -/
theorem execBufPush_next {b : Byte} {s t : State} (h : execBufPush b s = .next t) :
    (s.len = s.cfg.bufsz ∧ t = s.answer .eOverflow 0#32) ∨
    (s.len ≠ s.cfg.bufsz ∧ s.len.toNat < s.cfg.bufsz.toNat ∧
      t = (((s.setBuf (s.buf.write s.len.toNat b)).setLen (s.len + 1#32)).setVerdict .none).answer .ok 0#32) := by
  unfold execBufPush at h
  split at h
  · next e => cases h; exact .inl ⟨e, rfl⟩
  · next e =>
    rw [State.writeByte_next] at h
    obtain ⟨hl, h⟩ := h
    cases h
    exact .inr ⟨e, hl, rfl⟩

/-- `FTR.PARSE`: too short, a wrong tag, or the fields are taken. -/
theorem execFtrParse_next {s t : State} (h : execFtrParse s = .next t) :
    (s.len.toNat < 20 ∧ t = s.answer .eShort s.len) ∨
    (20 ≤ s.len.toNat ∧ ¬ s.TagOk ∧
      t = s.answer .eMagic (BitVec.ofNat 32 (s.memRead (s.len.toNat - 4) 4))) ∨
    (s.TagOk ∧ t = ((s.setF s.footerAt).setVerdict .none).answer .ok 0#32) := by
  unfold execFtrParse at h
  split at h
  · next e => cases h; exact .inl ⟨e, rfl⟩
  · next e =>
    rw [State.withBytes_next, decodeFooter_slice s (by omega), tagOfBytes_slice,
      show s.len.toNat - 20 + 16 = s.len.toNat - 4 by omega] at h
    obtain ⟨-, h⟩ := h
    by_cases ht : s.tag = magic
    · rw [if_pos ht] at h
      cases h
      exact .inr (.inr ⟨⟨by omega, ht⟩, rfl⟩)
    · rw [if_neg ht] at h
      cases h
      exact .inr (.inl ⟨by omega, fun k => ht k.2, rfl⟩)

/-- `FTR.ENCB`: out of range, or a byte of the footer; no register changes. -/
theorem execFtrEncb_next {b : Byte} {s t : State} (h : execFtrEncb b s = .next t) :
    (20 ≤ b.toNat ∧ t = s.answer .eRange 0#32) ∨
    (b.toNat < 20 ∧ ∃ x, (encodeFooter s.f)[b.toNat]? = some x ∧ t = s.answer .ok (zext32 x)) := by
  have hb : indexOfByte b = b.toNat := by
    have := b.isLt
    unfold indexOfByte zext32
    simp
    omega
  unfold execFtrEncb at h
  rw [hb] at h
  split at h
  · next e => cases h; exact .inl ⟨by simpa using e, rfl⟩
  · next x e => cases h; exact .inr ⟨by simpa using (List.getElem?_eq_some_iff.mp e).1, x, e, rfl⟩

/-- `PAY.RD`: the gate is closed, the index is out of range, or a payload byte; no register changes. -/
theorem execPayRd_next {v : Word} {s t : State} (h : execPayRd v s = .next t) :
    (s.gate = false ∧ t = s.answer .eGate 0#32) ∨
    (s.gate = true ∧ s.len.toNat - 20 ≤ v.toNat ∧ t = s.answer .eRange 0#32) ∨
    (s.gate = true ∧ v.toNat < s.len.toNat - 20 ∧ v.toNat < s.cfg.bufsz.toNat ∧
      t = s.answer .ok ((s.buf.read v.toNat).setWidth 32)) := by
  rw [execPayRd_eq] at h
  split at h
  · next hg =>
    split at h
    · rw [State.withBytes_next] at h
      obtain ⟨hb, h⟩ := h
      have hx : u32OfBytes [s.buf.read v.toNat] = (s.buf.read v.toNat).setWidth 32 := by
        simp [u32OfBytes, leValue]
      rw [Memory.slice_succ, Memory.slice_zero, hx] at h
      cases h
      exact .inr (.inr ⟨hg, by omega, by omega, rfl⟩)
    · cases h
      exact .inr (.inl ⟨hg, by omega, rfl⟩)
  · next hg => cases h; exact .inl ⟨by simpa using hg, rfl⟩

end Sys2Proof.Machine
end

