-- ==== Sys2Proof/Laws/PerInstr.lean ====
section
/-! SUPPORT. Per command: the word the encoder writes is legal by the masks of the opcode table (R53 to R56). -/

namespace Sys2Proof.Laws.LegalEncoding

open Sys2Proof

/-- The encoder's word of a command selects a row of the table. -/
def Statement (i : Instr) : Prop := legalWord (encode i) = true

/-- A word that selects a row of the table is legal. -/
theorem legal_of_row {cw : CmdWord} (row : CmdWord × CmdWord) (hrow : row ∈ tableRows) (h : cw &&& row.1 = row.2) :
    legalWord cw = true :=
  List.any_eq_true.mpr ⟨row, hrow, by simp [selectsRow, h]⟩

theorem sysNop : Statement .sysNop := by
  unfold Statement
  decide

theorem sysRst : Statement .sysRst := by
  unfold Statement
  decide

theorem sysStat : Statement .sysStat := by
  unfold Statement
  decide

theorem crcInit : Statement .crcInit := by
  unfold Statement
  decide

theorem crcUpd (imm8 : Byte) : Statement (.crcUpd imm8) :=
  legal_of_row (maskB, 0x1100000000#40) (by decide) (word_and_maskB 0x11#8 _)

theorem crcGet : Statement .crcGet := by
  unfold Statement
  decide

theorem bufClr : Statement .bufClr := by
  unfold Statement
  decide

theorem bufPush (imm8 : Byte) : Statement (.bufPush imm8) :=
  legal_of_row (maskB, 0x2100000000#40) (by decide) (word_and_maskB 0x21#8 _)

theorem bufLen : Statement .bufLen := by
  unfold Statement
  decide

theorem ftrParse : Statement .ftrParse := by
  unfold Statement
  decide

theorem ftrEncb (imm8 : Byte) : Statement (.ftrEncb imm8) :=
  legal_of_row (maskB, 0x3100000000#40) (by decide) (word_and_maskB 0x31#8 _)

theorem ftrRdorig : Statement .ftrRdorig := by
  unfold Statement
  decide

theorem ftrRdcomp : Statement .ftrRdcomp := by
  unfold Statement
  decide

theorem ftrRdcsum : Statement .ftrRdcsum := by
  unfold Statement
  decide

theorem ftrRdkind : Statement .ftrRdkind := by
  unfold Statement
  decide

theorem ftrWrorig (imm32 : Word) : Statement (.ftrWrorig imm32) :=
  legal_of_row (maskW, 0x3800000000#40) (by decide) (word_and_maskW 0x38#8 _)

theorem ftrWrcomp (imm32 : Word) : Statement (.ftrWrcomp imm32) :=
  legal_of_row (maskW, 0x3900000000#40) (by decide) (word_and_maskW 0x39#8 _)

theorem ftrWrcsum (imm32 : Word) : Statement (.ftrWrcsum imm32) :=
  legal_of_row (maskW, 0x3A00000000#40) (by decide) (word_and_maskW 0x3A#8 _)

theorem ftrWrkind (imm32 : Word) : Statement (.ftrWrkind imm32) :=
  legal_of_row (maskW, 0x3B00000000#40) (by decide) (word_and_maskW 0x3B#8 _)

theorem valRun : Statement .valRun := by
  unfold Statement
  decide

theorem payRd (imm32 : Word) : Statement (.payRd imm32) :=
  legal_of_row (maskW, 0x4100000000#40) (by decide) (word_and_maskW 0x41#8 _)

end Sys2Proof.Laws.LegalEncoding
end

