-- ==== Sys2Proof/Tests/Slice0.lean ====
section
/-! SUPPORT. Tests: words written out from the spec's encodings, single commands on small states with the results of
`95_test_vectors.md`, and a witness for the hypotheses of every obligation that has some. -/

namespace Sys2Proof.Machine

/-! ## Helpers -/

/-- A state with the container `bs` in `BUF`, as pushing `bs` after reset leaves it. -/
def testHolding (s : State) (bs : List Byte) : State :=
  { s with buf := bs.zipIdx.foldl (fun m c => m.write c.2 c.1) [], len := BitVec.ofNat 32 bs.length }

/-- The reset state (`BUFSZ = 64`) holding `bs`. -/
def testHeld (bs : List Byte) : State := testHolding State.reset bs

/-- The state after a result; the state before it where it is no next state. -/
def testAfter (s : State) : Result → State
  | .next t => t
  | _ => s

/-- A result is the next state `t`, as a check that evaluates. -/
def testIsNext (t : State) : Result → Bool
  | .next u => u == t
  | _ => false

theorem testIsNext_eq {t : State} : ∀ {r : Result}, testIsNext t r = true → r = .next t
  | .next _, h => congrArg Host.Outcome.next (eq_of_beq h)

/-- The response a command gives, as numbers. -/
def testAnswer (i : Instr) (s : State) : Option (Nat × Nat) :=
  match exec i s with
  | .next t => t.responses.getLast?.map fun r => (r.code.toNat, r.data.toNat)
  | _ => none

/-- The registers after a command, as numbers: `CRC_ACC`, `LEN`, `F`, `VERDICT`. -/
def testRegs (i : Instr) (s : State) : Option (Nat × Nat × List Nat × Nat) :=
  match exec i s with
  | .next t =>
    some (t.crcAcc.toNat, t.len.toNat, [t.f.orig.toNat, t.f.comp.toNat, t.f.csum.toNat, t.f.kind.toNat], t.verdict.toNat)
  | _ => none

/-- A footer by its bytes: three fields, the kind's low byte, the tag. -/
def testFooter (o c : Byte) (sum : List Byte) (k : Byte) : List Byte :=
  [o, 0#8, 0#8, 0#8, c, 0#8, 0#8, 0#8] ++ (sum ++ [k, 0#8, 0#8, 0#8, 0x44#8, 0x56#8, 0x50#8, 0x4C#8])

/-- `Crc32` of `61 62 63`, little-endian (V1). -/
def testSumAbc : List Byte := [0xC2#8, 0x41#8, 0x24#8, 0x35#8]

/-- V1. -/
def testV1 : List Byte := [0x61#8, 0x62#8, 0x63#8] ++ testFooter 3#8 3#8 testSumAbc 0#8

/-- V3 where the kind is 2, V4 where it is 1, V17 where `originalSize` is 0. -/
def testV3 (o k : Byte) : List Byte :=
  [0x50#8, 0x48#8, 0x65#8, 0x6C#8, 0x6C#8, 0x6F#8] ++ testFooter o 6#8 [0xCB#8, 0xD7#8, 0xBF#8, 0x8C#8] k

/-- V2: sixteen zero bytes and the tag. -/
def testV2 : List Byte := testFooter 0#8 0#8 [0#8, 0#8, 0#8, 0#8] 0#8

/-- V8: V1 with one payload byte changed. -/
def testV8 : List Byte := [0x61#8, 0x62#8, 0x62#8] ++ testFooter 3#8 3#8 testSumAbc 0#8

/-- `s` after a `VAL.RUN` that reached its last step: `CRC_ACC`, `F`, `VERDICT` and the response of a row of section 2.6. -/
def testEnd (s : State) (acc : Word) (f : FooterData) (v : Byte) (r : Response) : State :=
  { s with crcAcc := acc, f := f, verdict := v, responses := [r] }

/-- The end states of V1, V3 and V8, by their rows. -/
def testEndV1 : State := testEnd (testHeld testV1) 0xCADBBE3D#32 ⟨3#32, 3#32, 0x352441C2#32, 0#32⟩ 0x01#8 ⟨0x00#8, 3#32⟩
@[inherit_doc testEndV1] def testEndV3 : State :=
  testEnd (testHeld (testV3 5#8 2#8)) 0x73402834#32 ⟨5#32, 6#32, 0x8CBFD7CB#32, 2#32⟩ 0x02#8 ⟨0x00#8, 5#32⟩
@[inherit_doc testEndV1] def testEndV8 : State :=
  testEnd (testHeld testV8) 0xBDDC8EAB#32 ⟨3#32, 3#32, 0x352441C2#32, 0#32⟩ 0x13#8 ⟨0x13#8, 0x42237154#32⟩

/-- A block of capacity 20 holding V2, validated (P6 step 21). -/
def testFull : State :=
  testEnd (testHolding (State.resetFor ⟨20#32⟩) testV2) 0xFFFFFFFF#32 FooterData.zero 0x01#8 ⟨0x00#8, 0#32⟩

/-- The word `cw` presented in the state `s`. -/
def testPresented (s : State) (cw : CmdWord) : State := { s with input := [.command cw] }

/-! ## Well-formedness and decoding -/

/-- R58: one ill-formed word for each check, from T1, T2, T3, and the largest word. -/
theorem test_illformed_words_refused :
    legalWord 0x3300000000#40 = false ∧ legalWord 0x4000000001#40 = false ∧ legalWord 0x2100000100#40 = false ∧
    legalWord 0xFFFFFFFFFF#40 = false := by decide

theorem test_wellformed_words_accepted :
    legalWord 0x4000000000#40 = true ∧ legalWord 0x21000000FF#40 = true ∧ legalWord 0x41FFFFFFFF#40 = true := by decide

/-- R57, R58: the refusals by name. -/
theorem test_decode_refuses :
    decode 0x3300000000#40 = .error .reservedOpcode ∧ decode 0x4000000001#40 = .error .nonzeroArgument ∧
    decode 0x2100000100#40 = .error .nonzeroReservedBits ∧ decode 0x3100000114#40 = .error .nonzeroReservedBits ∧
    decode 0xFFFFFFFFFF#40 = .error .reservedOpcode := ⟨rfl, rfl, rfl, rfl, rfl⟩

/-- One word of each family, bit by bit: opcode bits 39 to 32, then the argument (R52 to R56). -/
theorem test_decode_bits :
    decode 0b0000001000000000000000000000000000000000#40 = .ok .sysStat ∧
    decode 0b0001000100000000000000000000000000110001#40 = .ok (.crcUpd 0x31#8) ∧
    decode 0b0010000100000000000000000000000001000100#40 = .ok (.bufPush 0x44#8) ∧
    decode 0b0011101000110101001001000100000111000010#40 = .ok (.ftrWrcsum 0x352441C2#32) ∧
    decode 0b0100000100000000000000000000000000000010#40 = .ok (.payRd 2#32) := ⟨rfl, rfl, rfl, rfl, rfl⟩

theorem test_decode_sys :
    decode 0x0000000000#40 = .ok .sysNop ∧ decode 0x0100000000#40 = .ok .sysRst ∧
    decode 0x0200000000#40 = .ok .sysStat := ⟨rfl, rfl, rfl⟩

theorem test_decode_crc :
    decode 0x1000000000#40 = .ok .crcInit ∧ decode 0x11000000FF#40 = .ok (.crcUpd 0xFF#8) ∧
    decode 0x1200000000#40 = .ok .crcGet := ⟨rfl, rfl, rfl⟩

theorem test_decode_buf :
    decode 0x2000000000#40 = .ok .bufClr ∧ decode 0x2100000061#40 = .ok (.bufPush 0x61#8) ∧
    decode 0x2200000000#40 = .ok .bufLen := ⟨rfl, rfl, rfl⟩

theorem test_decode_ftr :
    decode 0x3000000000#40 = .ok .ftrParse ∧ decode 0x3100000013#40 = .ok (.ftrEncb 0x13#8) ∧
    decode 0x3400000000#40 = .ok .ftrRdorig ∧ decode 0x3500000000#40 = .ok .ftrRdcomp ∧
    decode 0x3600000000#40 = .ok .ftrRdcsum ∧ decode 0x3700000000#40 = .ok .ftrRdkind := ⟨rfl, rfl, rfl, rfl, rfl, rfl⟩

theorem test_decode_ftr_write :
    decode 0x3800000005#40 = .ok (.ftrWrorig 5#32) ∧ decode 0x3900000006#40 = .ok (.ftrWrcomp 6#32) ∧
    decode 0x3A8CBFD7CB#40 = .ok (.ftrWrcsum 0x8CBFD7CB#32) ∧ decode 0x3BFFFFFFFF#40 = .ok (.ftrWrkind 0xFFFFFFFF#32) :=
  ⟨rfl, rfl, rfl, rfl⟩

theorem test_decode_val :
    decode 0x4000000000#40 = .ok .valRun ∧ decode 0x4100000016#40 = .ok (.payRd 22#32) := ⟨rfl, rfl⟩

/-- The numbering of the table: bit 0 is the least significant bit of the command word. -/
theorem test_decode_table_word :
    decodeTableWord 40 0x1100000031 = some (.crcUpd 0x31#8) ∧ decodeTableWord 40 0x3300000000 = none := ⟨rfl, rfl⟩

/-! ## The text form -/

/-- R61, R63: lines of the spec and their words. -/
theorem test_text_of_lines :
    wordsOfLine "CRC.UPD 0x31 ; a byte".toList = some [0x1100000031#40] ∧
    wordsOfLine "FTR.WRCSUM 0x352441C2".toList = some [0x3A352441C2#40] ∧
    wordsOfLine "PAY.RD 2".toList = some [0x4100000002#40] ∧ wordsOfLine "VAL.RUN".toList = some [0x4000000000#40] ∧
    wordsOfLine "BUF.PUSH 256".toList = none ∧ wordsOfLine "VAL.RUN 0".toList = none := by decide

/-- R62: a pseudo-command is its sequence of commands. -/
theorem test_text_of_pseudo :
    assembleLine "BUF.LOAD 0x61 98".toList = some [.bufPush 0x61#8, .bufPush 0x62#8] ∧
    assembleLine "FTR.SET 5 6 7 2".toList = some [.ftrWrorig 5#32, .ftrWrcomp 6#32, .ftrWrcsum 7#32, .ftrWrkind 2#32] ∧
    (assembleLine "FTR.ENC".toList).map List.length = some 20 ∧ assembleLine "CRC.FEED".toList = none := by decide

theorem test_text_written :
    textOf (.ftrWrcsum 0x352441C2#32) = "FTR.WRCSUM 0x352441C2".toList ∧
    responseText ⟨0x13#8, 0x42237154#32⟩ = "(13, 42237154)".toList := by decide

/-! ## Commands -/

/-- Y4 in the end state of V3, and T3c. -/
theorem test_sysNop :
    testAnswer .sysNop testEndV3 = some (0, 0) ∧ testRegs .sysNop testEndV3 = some (0x73402834, 26, [5, 6, 0x8CBFD7CB, 2], 2) := by
  decide

/-- Y3. -/
theorem test_sysRst : testRegs .sysRst testEndV3 = some (0xFFFFFFFF, 0, [0, 0, 0, 0], 0) := by decide

/-- Y1 and Y2. -/
theorem test_sysStat : testAnswer .sysStat State.reset = some (0, 0) ∧ testAnswer .sysStat testEndV8 = some (0, 0x13) := by
  decide

theorem test_crcInit : testRegs .crcInit testEndV1 = some (0xFFFFFFFF, 23, [3, 3, 0x352441C2, 0], 1) := by decide

/-- P1 steps 2 and 3. -/
theorem test_crcUpd :
    (testAfter State.reset (exec (.crcUpd 0x31#8) State.reset)).crcAcc = 0x7C231048#32 ∧
    crcStep 0x7C231048#32 0x32#8 = 0xB0ACBB32#32 := by decide

/-- The values of `CrcStep` of section 2.3 that no other test uses. -/
theorem test_crcStep :
    crcStep 1#32 0#8 = 0x77073096#32 ∧ crcStep 0x80000000#32 0#8 = 0x00800000#32 ∧
    crcStep 0xFFFFFFFF#32 0xFF#8 = 0x00FFFFFF#32 ∧ crcStep 0xDEBB20E3#32 0#8 = 0x39DD08E2#32 := by decide

/-- P3 step 27, and K1. -/
theorem test_crcGet : testAnswer .crcGet testEndV8 = some (0, 0x42237154) ∧ testAnswer .crcGet State.reset = some (0, 0) := by
  decide

/-- K4, K10. -/
theorem test_crc32 :
    crc32 [0x31#8, 0x32#8, 0x33#8, 0x34#8, 0x35#8, 0x36#8, 0x37#8, 0x38#8, 0x39#8] = 0xCBF43926#32 ∧
    crc32 [0x50#8, 0x48#8, 0x65#8, 0x6C#8, 0x6C#8, 0x6F#8] = 0x8CBFD7CB#32 := by decide +kernel

/-- B4: `F` and `CRC_ACC` are kept. -/
theorem test_bufClr : testRegs .bufClr testEndV1 = some (0xCADBBE3D, 0, [3, 3, 0x352441C2, 0], 0) := by decide

/-- B5. -/
theorem test_bufPush_drops_verdict :
    testAnswer (.bufPush 0#8) testEndV1 = some (0, 0) ∧
    testRegs (.bufPush 0#8) testEndV1 = some (0xCADBBE3D, 24, [3, 3, 0x352441C2, 0], 0) := by decide

/-- B3: the full buffer, whose verdict is kept. -/
theorem test_bufPush_full :
    testAnswer (.bufPush 0#8) testFull = some (2, 0) ∧
    testRegs (.bufPush 0#8) testFull = some (0xFFFFFFFF, 20, [0, 0, 0, 0], 1) := by decide

/-- P2 step 25. -/
theorem test_bufLen : testAnswer .bufLen testEndV1 = some (0, 0x17) := by decide

/-- T5: kind 3 parses, and with one more byte the tag is wrong and `F` is kept. -/
theorem test_ftrParse :
    testRegs .ftrParse (testHeld ([0x61#8, 0x62#8, 0x63#8] ++ testFooter 3#8 3#8 testSumAbc 3#8)) =
      some (0xFFFFFFFF, 23, [3, 3, 0x352441C2, 3], 0) ∧
    testAnswer .ftrParse (testHeld ([0x61#8, 0x62#8, 0x63#8] ++ testFooter 3#8 3#8 testSumAbc 3#8 ++ [0#8])) =
      some (0x11, 0x004C5056) := by decide

/-- T4, T7 and T6. -/
theorem test_ftrParse_short :
    testAnswer .ftrParse (testHeld [0#8, 0#8, 0#8, 0#8, 0#8, 0#8, 0x41#8, 0x42#8, 0x43#8, 0x44#8]) = some (0x10, 10) ∧
    testAnswer .ftrParse (testHeld (testV1.drop 4)) = some (0x10, 19) ∧
    testAnswer .ftrParse State.reset = some (0x10, 0) := by decide

/-- E3, its first, sixth and last bytes. -/
theorem test_ftrEncb :
    testAnswer (.ftrEncb 0#8) { State.reset with f := ⟨0x01020304#32, 0xA0B0C0D0#32, 0xFFFFFFFF#32, 0#32⟩ } = some (0, 4) ∧
    testAnswer (.ftrEncb 5#8) { State.reset with f := ⟨0x01020304#32, 0xA0B0C0D0#32, 0xFFFFFFFF#32, 0#32⟩ } = some (0, 0xC0) ∧
    testAnswer (.ftrEncb 19#8) State.reset = some (0, 0x4C) := by decide

/-- Section 2.5: indexes 20 and 255. -/
theorem test_ftrEncb_range :
    testAnswer (.ftrEncb 20#8) State.reset = some (3, 0) ∧ testAnswer (.ftrEncb 255#8) State.reset = some (3, 0) := by
  decide

/-- The four reads in the end state of V3 (P4 steps 63 and 64). -/
theorem test_ftr_reads :
    testAnswer .ftrRdorig testEndV3 = some (0, 5) ∧ testAnswer .ftrRdcomp testEndV3 = some (0, 6) ∧
    testAnswer .ftrRdcsum testEndV3 = some (0, 0x8CBFD7CB) ∧ testAnswer .ftrRdkind testEndV3 = some (0, 2) := by
  decide

/-- The writes: one field each, and the verdict falls. -/
theorem test_ftr_writes_sizes :
    testRegs (.ftrWrorig 9#32) testEndV3 = some (0x73402834, 26, [9, 6, 0x8CBFD7CB, 2], 0) ∧
    testRegs (.ftrWrcomp 9#32) testEndV3 = some (0x73402834, 26, [5, 9, 0x8CBFD7CB, 2], 0) := by decide

/-- The other two writes. -/
theorem test_ftr_writes_check :
    testRegs (.ftrWrcsum 9#32) testEndV3 = some (0x73402834, 26, [5, 6, 9, 2], 0) ∧
    testRegs (.ftrWrkind 0xFFFFFFFF#32) testEndV3 = some (0x73402834, 26, [5, 6, 0x8CBFD7CB, 0xFFFFFFFF], 0) := by
  decide

/-- V1, V2 (P6 step 21), V3 and V4: the passing rows. -/
theorem test_valRun_passes :
    testIsNext testEndV1 (exec .valRun (testHeld testV1)) = true ∧
    testIsNext testFull (exec .valRun (testHolding (State.resetFor ⟨20#32⟩) testV2)) = true ∧
    testIsNext testEndV3 (exec .valRun (testHeld (testV3 5#8 2#8))) = true ∧
    testAnswer .valRun (testHeld (testV3 5#8 1#8)) = some (0, 5) := by decide +kernel

/-- V5, V6, V7, V8, V9 and V10: one failing row for each check. -/
theorem test_valRun_fails :
    testAnswer .valRun (testHeld (testV1.drop 4)) = some (0x10, 0x13) ∧
    testAnswer .valRun (testHeld (testV1.take 22 ++ [0x6C#8])) = some (0x11, 0x6C505644) ∧
    testAnswer .valRun (testHeld ([0x61#8, 0x62#8, 0x63#8] ++ testFooter 3#8 4#8 testSumAbc 0#8)) = some (0x12, 3) ∧
    testIsNext testEndV8 (exec .valRun (testHeld testV8)) = true ∧
    testAnswer .valRun (testHeld ([0x61#8, 0x62#8, 0x63#8] ++ testFooter 4#8 3#8 testSumAbc 0#8)) = some (0x14, 4) ∧
    testAnswer .valRun (testHeld ([0x61#8, 0x62#8, 0x63#8] ++ testFooter 3#8 3#8 testSumAbc 3#8)) = some (0x15, 3) := by
  decide +kernel

/-- `PAY.RD` after V3 and after V1. -/
theorem test_payRd :
    testAnswer (.payRd 5#32) testEndV3 = some (0, 0x6F) ∧ testAnswer (.payRd 6#32) testEndV3 = some (3, 0) ∧
    testAnswer (.payRd 0xFFFFFFFF#32) testEndV1 = some (3, 0) := by decide

/-- `PAY.RD` after V8, after reset, and with the empty payload of V2. -/
theorem test_payRd_closed :
    testAnswer (.payRd 0#32) testEndV8 = some (4, 0) ∧ testAnswer (.payRd 0#32) State.reset = some (4, 0) ∧
    testAnswer (.payRd 0#32) testFull = some (3, 0) := by decide

/-! ## Steps -/

/-- P6 steps 25 to 28: an illegal word is answered `(01, 0)` and changes nothing else. -/
theorem test_step_illegal :
    testAfter State.reset (step (testPresented testFull 0x4000000001#40)) =
      { testFull with responses := testFull.responses ++ [⟨0x01#8, 0#32⟩] } := by decide

/-- The first command after reset. -/
theorem test_step_first :
    testAfter State.reset (step (State.reset.withFetchWord 40 0x1100000031)) =
      { State.reset with crcAcc := 0x7C231048#32, responses := [⟨0x00#8, 0#32⟩] } := by decide

/-! ## Witnesses: for every obligation with hypotheses, states and operands that meet them -/

/-- V1 held after reset meets the state invariant, with words presented (`StepKeepsWf`, `RunAnswersEveryCommand`,
`EveryWordGetsOneResponse`, `BufLoadAppends`, `PushedFooterParsesBack`). -/
theorem test_witness_wf : ({ testHeld testV1 with input := [.command 0x4000000000#40, .reset] } : State).Wf :=
  ⟨by decide, by decide, by decide, by decide, by decide⟩

/-- The end state of V1 has passed (`StepKeepsPassInvariant`, `PayRdReleasesOnlyPassedPayload`, `FtrReadRules`). -/
theorem test_witness_passed : testEndV1.Passed :=
  ⟨by decide, by decide, by decide, by decide +kernel, by decide, by decide⟩

theorem test_witness_passInv : testEndV1.PassInv ∧ testEndV1.gate = true := ⟨fun _ => test_witness_passed, by decide⟩

/-- `StepKeepsPassInvariant`: both invariants hold of the end state of V1, and the step goes on. -/
theorem test_witness_keeps :
    testEndV1.Wf ∧ testEndV1.PassInv ∧ step testEndV1 = .next testEndV1 :=
  ⟨⟨by decide, by decide, by decide, by decide, by decide⟩,
    test_witness_passInv.1, testIsNext_eq (by decide)⟩

/-- `StepRunsDecodedCommand`, `EncodeOfDecode`. -/
theorem test_witness_step :
    (testPresented State.reset 0x1100000031#40).input = [.command 0x1100000031#40] ∧
    decode 0x1100000031#40 = .ok (.crcUpd 0x31#8) := ⟨rfl, rfl⟩

/-- `StepWithoutACommand`, `ResetValuesAndWhatTheyAnswer`, `SysRstRule`: a reset event is presented, or nothing. -/
theorem test_witness_reset :
    ({ State.reset with verdict := 0x01#8, input := [.reset] } : State).input = [.reset] ∧ State.reset.input = [] ∧
    State.reset.AtReset ∧ (∃ t, step { State.reset with verdict := 0x01#8, input := [.reset] } = .next t) ∧
    ∃ t, exec .sysRst { State.reset with verdict := 0x01#8 } = .next t :=
  ⟨rfl, rfl, ⟨rfl, rfl, rfl, rfl⟩, ⟨_, rfl⟩, ⟨_, rfl⟩⟩

/-- `IllegalWords`: the boundary values of its clauses. -/
theorem test_witness_illegal :
    decode 0x0300000000#40 = .error .reservedOpcode ∧ decode 0x0F00000000#40 = .error .reservedOpcode ∧
    decode 0x3200000000#40 = .error .reservedOpcode ∧ decode 0x3C00000000#40 = .error .reservedOpcode ∧
    decode 0x3F00000000#40 = .error .reservedOpcode ∧ decode 0x4200000000#40 = .error .reservedOpcode ∧
    decode 0x0080000000#40 = .error .nonzeroArgument ∧ decode 0x1180000000#40 = .error .nonzeroReservedBits :=
  ⟨rfl, rfl, rfl, rfl, rfl, rfl, rfl, rfl⟩

/-- `SysStatRule`, `StateAfterAnError`: a failing `VAL.RUN`. -/
theorem test_witness_failing :
    exec .valRun (testHeld testV8) = .next testEndV8 ∧
    testEndV8.responses = (testHeld testV8).responses ++ [⟨0x13#8, 0x42237154#32⟩] :=
  ⟨testIsNext_eq test_valRun_fails.2.2.2.1, by decide⟩

/-- `CrcStreaming`, `CrcInitRule`: a stream of one byte, with other commands between. -/
theorem test_witness_stream :
    keepsStream [.crcUpd 0x31#8, .bufLen] ∧ fedBytes [.crcUpd 0x31#8, .bufLen] = [0x31#8] ∧
    (∃ t, performAll [.crcInit, .crcUpd 0x31#8, .bufLen] testEndV1 = .next t) ∧ ∃ t, exec .crcInit testEndV1 = .next t :=
  ⟨by unfold keepsStream; decide, rfl, ⟨_, rfl⟩, ⟨_, rfl⟩⟩

/-- `CrcGetRule`, `WriteTable`: the size check passes in V8, not in V5. -/
theorem test_witness_sizeOk :
    (testHeld testV8).SizeOk ∧ ¬ (testHeld (testV1.drop 4)).SizeOk ∧
    ∃ t, exec .valRun (testHeld (testV1.drop 4)) = .next t := ⟨by decide, by decide, ⟨_, rfl⟩⟩

/-- `BufPushRule`, `ResponseCodes`: a full buffer, and one with room for one byte. -/
theorem test_witness_push :
    testFull.len = testFull.cfg.bufsz ∧ (testHolding (State.resetFor ⟨24#32⟩) testV1).len.toNat + 1 = 24 ∧
    (testHolding (State.resetFor ⟨24#32⟩) testV1).buf.wf = true := by decide

/-- `BufLoadAppends`, `PushedFooterParsesBack`: exactly twenty bytes of room. -/
theorem test_witness_load :
    (State.resetFor ⟨20#32⟩).Wf ∧ (State.resetFor ⟨20#32⟩).len.toNat + (encodeFooter FooterData.zero).length = 20 :=
  ⟨⟨rfl, by decide, by decide, rfl, by decide⟩, rfl⟩

/-- `FtrEncbRule`: the last index and the first beyond it. -/
theorem test_witness_encb : (19#8).toNat < 20 ∧ 20 ≤ (20#8).toNat := by decide

/-- `FooterRoundTrip`: twenty bytes that end in the tag. -/
theorem test_witness_footer :
    testV2.length = 20 ∧ testV2.drop 16 = [0x44#8, 0x56#8, 0x50#8, 0x4C#8] := ⟨rfl, rfl⟩

/-- `FtrParseRule`: 19 bytes; 20 bytes with a wrong tag (V18); 20 bytes with the tag (V2). -/
theorem test_witness_parse :
    (testHeld (testV2.take 19)).len.toNat < 20 ∧
    ¬ (testHeld (testV2.take 16 ++ [0x64#8, 0x76#8, 0x70#8, 0x6C#8])).TagOk ∧
    20 ≤ (testHeld (testV2.take 16 ++ [0x64#8, 0x76#8, 0x70#8, 0x6C#8])).len.toNat ∧
    (testHeld testV2).TagOk ∧ (testHeld testV2).len.toNat ≤ (testHeld testV2).cfg.bufsz.toNat := by decide

/-- `ValRunRule`: each of its branches. -/
theorem test_witness_valRun :
    (testHeld (testV1.drop 4)).len.toNat < 20 ∧ (testHeld (testV1.take 22 ++ [0x6C#8])).tag ≠ magic ∧
    (testHeld testV1).tag = magic ∧ (testHeld (testV2 ++ testV2)).len.toNat - 20 ≠ (testHeld (testV2 ++ testV2)).footerAt.comp.toNat ∧
    crc32 (testHeld testV8).payload ≠ (testHeld testV8).footerAt.csum ∧ (testHeld testV1).footerAt.kind = 0#32 ∧
    (testHeld (testV3 5#8 2#8)).footerAt.kind = 2#32 := by decide +kernel

/-- `ValRunReadsOnlyTheContainerAndIsIdempotent`: two states with one container and different registers. -/
theorem test_witness_sameContainer :
    (testHeld testV1).SameContainer testEndV1 ∧ testEndV1.f ≠ (testHeld testV1).f ∧
    exec .valRun (testHeld testV1) = .next testEndV1 :=
  ⟨⟨by decide, by decide, fun a _ => congrArg (Memory.read · a) (by decide)⟩, by decide,
    testIsNext_eq test_valRun_passes.1⟩

/-- `PayRdRule`, `VerdictInvalidation`: the gate shut, the last payload byte, the first byte beyond it. -/
theorem test_witness_payRd :
    testEndV8.verdict ≠ 0x01#8 ∧ testEndV8.verdict ≠ 0x02#8 ∧ testEndV3.verdict = 0x02#8 ∧
    testEndV3.len.toNat ≤ testEndV3.cfg.bufsz.toNat ∧ (5#32).toNat < testEndV3.len.toNat - 20 ∧
    testEndV3.len.toNat - 20 ≤ (6#32).toNat := by decide

/-- `PayRdReleasesOnlyPassedPayload`, `OnlyThePushedByteChanges`: an index that is answered. -/
theorem test_witness_released :
    exec (.payRd 2#32) testEndV1 = .next { testEndV1 with responses := testEndV1.responses ++ [⟨0x00#8, 0x63#32⟩] } ∧
    testEndV1.buf.wf = true :=
  ⟨testIsNext_eq (by decide), by decide⟩

/-- `PayloadIsReadOutWhole`, `OriginalSizeIsUncheckedForLz4`: a passing `VAL.RUN`, and the container with another
`originalSize` (V17). -/
theorem test_witness_passing :
    (testHeld (testV3 5#8 2#8)).len.toNat ≤ (testHeld (testV3 5#8 2#8)).cfg.bufsz.toNat ∧
    exec .valRun (testHeld (testV3 5#8 2#8)) = .next testEndV3 ∧ testEndV3.gate = true ∧
    (testHeld (testV3 0#8 2#8)).len = (testHeld (testV3 5#8 2#8)).len ∧
    (testHeld (testV3 0#8 2#8)).footerAt.orig ≠ (testHeld (testV3 5#8 2#8)).footerAt.orig :=
  ⟨by decide, testIsNext_eq test_valRun_passes.2.2.1, by decide, by decide, by decide⟩

/-- V17's bytes are those of V3 but at index 6. -/
theorem test_witness_originalSize (x : Nat) (h : x < 6 ∨ 10 ≤ x) :
    (testHeld (testV3 0#8 2#8)).buf.read x = (testHeld (testV3 5#8 2#8)).buf.read x := by
  have hb : (testHeld (testV3 5#8 2#8)).buf = (testHeld (testV3 0#8 2#8)).buf.write 6 5#8 := by decide
  rw [hb, Memory.read_write_of_wf (by decide), if_neg (by omega)]

/-- `OnePayloadByteChangeIsCaught`: V8's bytes are those of V1 but at index 2. -/
theorem test_witness_oneByte :
    testEndV1.gate = true ∧ (testHeld testV8).len = (testHeld testV1).len ∧
    (testHeld testV8).buf.read 2 ≠ (testHeld testV1).buf.read 2 ∧
    ∀ x, x ≠ 2 → (testHeld testV8).buf.read x = (testHeld testV1).buf.read x := by
  refine ⟨by decide, by decide, by decide, fun x hx => ?_⟩
  have hb : (testHeld testV8).buf = (testHeld testV1).buf.write 2 0x62#8 := by decide
  rw [hb, Memory.read_write_of_wf (by decide), if_neg hx]

/-- `BuiltContainerPasses`: a payload of three bytes, stored and as kinds 1 and 2. -/
theorem test_witness_built :
    State.reset.Wf ∧ State.reset.len = 0#32 ∧
    [0x61#8, 0x62#8, 0x63#8].length + 20 ≤ State.reset.cfg.bufsz.toNat ∧ (3#32).toNat = [0x61#8, 0x62#8, 0x63#8].length :=
  ⟨⟨rfl, by decide, by decide, rfl, by decide⟩, rfl, by decide, rfl⟩

/-- `StepNeverStopsWithinCapacity`: `LEN` at the capacity. -/
theorem test_witness_atCapacity : testFull.len.toNat ≤ testFull.cfg.bufsz.toNat := by decide

/-- `VerdictInvalidation`, `StateAfterAnError`: a command that changes `LEN` and answers `OK`, one that answers an error,
and one that writes `CRC_ACC` only. -/
theorem test_witness_invalidation :
    exec .bufClr testEndV1 = .next (testAfter State.reset (exec .bufClr testEndV1)) ∧
    (testAfter State.reset (exec .bufClr testEndV1)).len ≠ testEndV1.len ∧
    exec (.bufPush 0#8) testFull = .next { testFull with responses := testFull.responses ++ [⟨0x02#8, 0#32⟩] } ∧
    ∃ t, exec (.crcUpd 0#8) testEndV1 = .next t :=
  ⟨rfl, by decide, testIsNext_eq (by decide), ⟨_, rfl⟩⟩

/-- `StaleBytesAreUnobservable`: two empty containers with different bytes beyond `LEN`, and a byte to push. -/
theorem test_witness_stale :
    (testPresented State.reset 0x2100000062#40).SameButStale
      { testPresented State.reset 0x2100000062#40 with buf := [(0, 0x61#8)] } ∧
    Memory.wf [] = true ∧ Memory.wf [(0, 0x61#8)] = true ∧
    ∃ t, step (testPresented State.reset 0x2100000062#40) = .next t :=
  ⟨⟨rfl, rfl, rfl, rfl, rfl, rfl, rfl, fun _ h => absurd h (Nat.not_lt_zero _)⟩, rfl, rfl, ⟨_, rfl⟩⟩

/-- `DecoderAgreesWithTable`: the row of `BUF.PUSH` and a word that selects it. -/
theorem test_witness_row :
    tableRows[7]? = some (maskB, 0x2100000000#40) ∧ selectsRow 0x21000000FF#40 (maskB, 0x2100000000#40) = true := ⟨rfl, rfl⟩

/-- `CrcUpdRule`, `CrcLinearInvertibleSensitive`: an accumulator that is not zero, two different bytes. -/
theorem test_witness_crc : (0x80000000#32) ≠ 0#32 ∧ (0x63#8) ≠ 0x62#8 := by decide

/-- `StepKeepsVerdictInvariant`, `BufClrRule`: a failing verdict that is the outcome of its container, and an empty buffer. -/
theorem test_witness_verdictInv :
    testEndV8.VerdictInv ∧ step testEndV8 = .next testEndV8 ∧ State.reset.VerdictInv ∧ State.reset.len = 0#32 :=
  ⟨.inr (by decide +kernel), testIsNext_eq (by decide), .inl rfl, rfl⟩

/-- `EveryReachableStateMeetsTheInvariants`: one step of a run at the smallest capacity. -/
theorem test_witness_reachable :
    Config.wf ⟨20#32⟩ = true ∧
    ∃ t, Host.Core.run Sys2Proof.core 1 { State.resetFor ⟨20#32⟩ with input := [.command 0x2000000000#40] } = .next t :=
  ⟨rfl, ⟨_, rfl⟩⟩

/-- `StateAfterAnError`, `ResponseCodes`: an illegal word is presented, and the step goes on. -/
theorem test_witness_illegal_step :
    (testPresented testFull 0x2100000100#40).input = [.command 0x2100000100#40] ∧
    decode 0x2100000100#40 = .error .nonzeroReservedBits ∧
    ∃ t, step (testPresented State.reset 0x2100000100#40) = .next t := ⟨rfl, rfl, ⟨_, rfl⟩⟩

end Sys2Proof.Machine
end

/-! PROOFS. Family `00_scope.md`: what a command can leave, that it always ends where `LEN <= BUFSZ`, and from these the
step and run statements. -/

namespace Sys2Proof.Machine

/-! ## What a command can leave -/

/-- What every command leaves, whichever it is: the capacity and the events waiting stay; one response is added; the
verdict stays or is one of R16; the container stays, is emptied, or grows by one byte stored at index `LEN` (R19). -/
structure CommandEffect (s t : State) : Prop where
  cfg : t.cfg = s.cfg
  input : t.input = s.input
  responses : ∃ (c : Code) (d : Word), t.responses = s.responses ++ [⟨c.value, d⟩]
  verdict : t.verdict = s.verdict ∨ ∃ v : Verdict, t.verdict = v.value
  container : (t.buf = s.buf ∧ (t.len = s.len ∨ t.len = 0#32)) ∨
    (s.len.toNat < s.cfg.bufsz.toNat ∧ t.len = s.len + 1#32 ∧ ∃ b, t.buf = s.buf.write s.len.toNat b)

/-- A command that writes no register but `CRC_ACC`. -/
theorem commandEffect_setCrcAcc (s : State) (a : Word) (c : Code) (d : Word) :
    CommandEffect s ((s.setCrcAcc a).answer c d) :=
  ⟨rfl, rfl, ⟨c, d, rfl⟩, .inl rfl, .inl ⟨rfl, .inl rfl⟩⟩

/-- A command that writes no register. -/
theorem commandEffect_answer (s : State) (c : Code) (d : Word) : CommandEffect s (s.answer c d) :=
  commandEffect_setCrcAcc s s.crcAcc c d

/-- A command that leaves the container and may write the other registers. -/
theorem commandEffect_setVerdict (s : State) (f : FooterData) (a : Word) (v : Verdict) (c : Code) (d : Word) :
    CommandEffect s ((((s.setF f).setCrcAcc a).setVerdict v).answer c d) :=
  ⟨rfl, rfl, ⟨c, d, rfl⟩, .inr ⟨v, rfl⟩, .inl ⟨rfl, .inl rfl⟩⟩

/-- A command that writes `F`, so the verdict falls (R20). -/
theorem commandEffect_setF (s : State) (f : FooterData) (c : Code) (d : Word) :
    CommandEffect s (((s.setF f).setVerdict .none).answer c d) :=
  commandEffect_setVerdict s f s.crcAcc .none c d

/-- A command that empties the container. -/
theorem commandEffect_setLen_zero (s : State) (f : FooterData) (a : Word) (c : Code) (d : Word) :
    CommandEffect s (((((s.setF f).setCrcAcc a).setLen 0#32).setVerdict .none).answer c d) :=
  ⟨rfl, rfl, ⟨c, d, rfl⟩, .inr ⟨.none, rfl⟩, .inl ⟨rfl, .inr rfl⟩⟩

/-- `BUF.PUSH` adds nothing but an error response, or stores its byte at index `LEN`. -/
theorem commandEffect_of_execBufPush {b : Byte} {s t : State} (h : execBufPush b s = .next t) : CommandEffect s t := by
  obtain ⟨-, rfl⟩ | ⟨-, hlt, rfl⟩ := execBufPush_next h
  · exact commandEffect_answer s _ _
  · exact ⟨rfl, rfl, ⟨_, _, rfl⟩, .inr ⟨.none, rfl⟩, .inr ⟨hlt, rfl, b, rfl⟩⟩

theorem valChecksum_next {s t : State} (h : valChecksum s = .next t) :
    ∃ a v d, v ≠ Verdict.none ∧ t = ((s.setCrcAcc a).setVerdict v).answer v.code d := by
  unfold valChecksum at h
  obtain ⟨-, h⟩ := State.withBytes_next.mp h
  split at h
  · obtain ⟨v, d, hv, rfl⟩ := valKind_next h
    exact ⟨_, v, d, hv, rfl⟩
  · cases h
    exact ⟨_, .failCsum, _, by decide, rfl⟩

theorem valSize_next {s t : State} (h : valSize s = .next t) :
    ∃ a v d, v ≠ Verdict.none ∧ t = ((s.setCrcAcc a).setVerdict v).answer v.code d := by
  unfold valSize at h
  split at h
  · exact valChecksum_next h
  · cases h
    exact ⟨s.crcAcc, .failSize, _, by decide, rfl⟩

/-- `VAL.RUN` writes `F`, `CRC_ACC` and `VERDICT`, and answers the code of the verdict; nothing else changes (R126). -/
theorem execValRun_next {s t : State} (h : execValRun s = .next t) :
    ∃ f a v d, v ≠ Verdict.none ∧ t = (((s.setF f).setCrcAcc a).setVerdict v).answer v.code d := by
  unfold execValRun at h
  split at h
  · cases h
    exact ⟨s.f, s.crcAcc, .failShort, _, by decide, rfl⟩
  · unfold valMagic at h
    obtain ⟨-, h⟩ := State.withBytes_next.mp h
    split at h
    · cases h
      exact ⟨s.f, s.crcAcc, .failMagic, _, by decide, rfl⟩
    · exact ⟨_, valSize_next h⟩

/-- The inversion lemma of `exec` for what the invariants and the ports speak of. -/
theorem commandEffect_of_exec {i : Instr} {s t : State} (h : exec i s = .next t) : CommandEffect s t := by
  cases i with
  | sysNop | sysStat | crcGet | bufLen | ftrRdorig | ftrRdcomp | ftrRdcsum | ftrRdkind =>
    cases h
    exact commandEffect_answer s _ _
  | crcInit | crcUpd =>
    cases h
    exact commandEffect_setCrcAcc s _ _ _
  | ftrWrorig | ftrWrcomp | ftrWrcsum | ftrWrkind =>
    cases h
    exact commandEffect_setF s _ _ _
  | sysRst =>
    cases h
    exact commandEffect_setLen_zero s _ _ _ _
  | bufClr =>
    cases h
    exact commandEffect_setLen_zero s s.f s.crcAcc _ _
  | bufPush b => exact commandEffect_of_execBufPush h
  | ftrParse =>
    obtain ⟨-, rfl⟩ | ⟨-, -, rfl⟩ | ⟨-, rfl⟩ := execFtrParse_next h
    · exact commandEffect_answer s _ _
    · exact commandEffect_answer s _ _
    · exact commandEffect_setF s _ _ _
  | ftrEncb b =>
    obtain ⟨-, rfl⟩ | ⟨-, x, -, rfl⟩ := execFtrEncb_next h <;> exact commandEffect_answer s _ _
  | valRun =>
    obtain ⟨f, a, v, d, -, rfl⟩ := execValRun_next h
    exact commandEffect_setVerdict s f a v _ d
  | payRd v =>
    obtain ⟨-, rfl⟩ | ⟨-, -, rfl⟩ | ⟨-, -, -, rfl⟩ := execPayRd_next h <;> exact commandEffect_answer s _ _

theorem commandEffect_of_runWord {cw : CmdWord} {s t : State} (h : runWord cw s = .next t) : CommandEffect s t := by
  unfold runWord at h
  split at h
  · exact commandEffect_of_exec h
  · cases h
    exact commandEffect_answer s _ _

/-! ## Where `LEN <= BUFSZ`, a command ends in a next state -/

theorem execBufPush_isNext {s : State} (hs : s.len.toNat ≤ s.cfg.bufsz.toNat) (b : Byte) :
    ∃ t, execBufPush b s = .next t := by
  unfold execBufPush
  split
  · exact ⟨_, rfl⟩
  · next hfull =>
    have hne : s.len.toNat ≠ s.cfg.bufsz.toNat := fun e => hfull (BitVec.eq_of_toNat_eq e)
    rw [State.writeByte_of_lt (by omega)]
    exact ⟨_, rfl⟩

theorem execFtrParse_isNext {s : State} (hs : s.len.toNat ≤ s.cfg.bufsz.toNat) : ∃ t, execFtrParse s = .next t := by
  unfold execFtrParse
  split
  · exact ⟨_, rfl⟩
  · rw [State.withBytes_of_le (by omega)]
    split <;> exact ⟨_, rfl⟩

theorem execFtrEncb_isNext (b : Byte) (s : State) : ∃ t, execFtrEncb b s = .next t := by
  unfold execFtrEncb
  split <;> exact ⟨_, rfl⟩

theorem valKind_isNext (s : State) : ∃ t, valKind s = .next t := by
  obtain ⟨-, -, e⟩ | ⟨-, -, e⟩ | ⟨-, e⟩ | ⟨-, -, -, e⟩ := valKind_eq s <;> exact ⟨_, e⟩

theorem valChecksum_isNext {s : State} (hs : s.len.toNat ≤ s.cfg.bufsz.toNat) : ∃ t, valChecksum s = .next t := by
  have hp : 0 + s.plen ≤ s.cfg.bufsz.toNat := by
    unfold State.plen
    omega
  unfold valChecksum
  rw [State.withBytes_of_le hp]
  split
  · exact valKind_isNext _
  · exact ⟨_, rfl⟩

theorem valSize_isNext {s : State} (hs : s.len.toNat ≤ s.cfg.bufsz.toNat) : ∃ t, valSize s = .next t := by
  unfold valSize
  split
  · exact valChecksum_isNext hs
  · exact ⟨_, rfl⟩

theorem execValRun_isNext {s : State} (hs : s.len.toNat ≤ s.cfg.bufsz.toNat) : ∃ t, execValRun s = .next t := by
  unfold execValRun
  split
  · exact ⟨_, rfl⟩
  · have hp : s.plen + 20 ≤ s.cfg.bufsz.toNat := by
      unfold State.plen
      omega
    unfold valMagic
    rw [State.withBytes_of_le hp]
    split
    · exact ⟨_, rfl⟩
    · exact valSize_isNext hs

theorem execPayRd_isNext {s : State} (hs : s.len.toNat ≤ s.cfg.bufsz.toNat) (v : Word) :
    ∃ t, execPayRd v s = .next t := by
  rw [execPayRd_eq]
  split
  · split
    · rw [State.withBytes_of_le (by omega)]
      exact ⟨_, rfl⟩
    · exact ⟨_, rfl⟩
  · exact ⟨_, rfl⟩

/-- Only the four commands that access `BUF` need the bound; the other seventeen end in every state. -/
theorem exec_isNext {s : State} (hs : s.len.toNat ≤ s.cfg.bufsz.toNat) (i : Instr) : ∃ t, exec i s = .next t := by
  cases i with
  | bufPush b => exact execBufPush_isNext hs b
  | ftrParse => exact execFtrParse_isNext hs
  | ftrEncb b => exact execFtrEncb_isNext b s
  | valRun => exact execValRun_isNext hs
  | payRd v => exact execPayRd_isNext hs v
  | sysNop | sysRst | sysStat | crcInit | crcUpd | crcGet | bufClr | bufLen | ftrRdorig | ftrRdcomp | ftrRdcsum
  | ftrRdkind | ftrWrorig | ftrWrcomp | ftrWrcsum | ftrWrkind => exact ⟨_, rfl⟩

theorem runWord_isNext {s : State} (hs : s.len.toNat ≤ s.cfg.bufsz.toNat) (cw : CmdWord) :
    ∃ t, runWord cw s = .next t := by
  unfold runWord
  split
  · exact exec_isNext hs _
  · exact ⟨_, rfl⟩

/-! ## One step, by what is presented next -/

theorem step_of_input_nil {s : State} (h : s.input = []) : step s = .next s := by
  simp [step, State.takeEvent_nil h, idle]

theorem step_of_input_command {s : State} {cw : CmdWord} {rest : List Event} (h : s.input = .command cw :: rest) :
    step s = runWord cw (s.setInput rest) := by
  simp [step, State.takeEvent_cons h]

theorem step_of_input_reset {s : State} {rest : List Event} (h : s.input = .reset :: rest) :
    step s = .next (s.setInput rest).resetRegisters := by
  simp [step, State.takeEvent_cons h, resetEvent]

/-- By the event presented next: nothing and a reset event always end, a word ends by `runWord_isNext`. -/
theorem step_isNext {s : State} (hs : s.len.toNat ≤ s.cfg.bufsz.toNat) : ∃ t, step s = .next t := by
  match h : s.input with
  | [] => exact ⟨_, step_of_input_nil h⟩
  | .reset :: rest => exact ⟨_, step_of_input_reset h⟩
  | .command cw :: rest =>
    rw [step_of_input_command h]
    exact runWord_isNext (s := s.setInput rest) hs cw

/-! ## The state invariant -/

theorem Verdict.value_mem_verdictValues (v : Verdict) : v.value ∈ verdictValues := by
  cases v <;> decide

/-- `LEN + 1` does not wrap where `LEN < BUFSZ`, so it stays within the capacity (R91). -/
theorem toNat_succ_le_of_lt {n z : Word} (h : n.toNat < z.toNat) : (n + 1#32).toNat ≤ z.toNat := by
  bv_omega

/-- A byte stored inside `BUF` puts no cell outside it. -/
theorem Memory.inside_write {m : Memory} {a z : Nat} {b : Byte} (ha : a < z) (hm : ∀ c ∈ m, c.1 < z) :
    ∀ c ∈ m.write a b, c.1 < z := by
  intro c hc
  obtain rfl | hc := Memory.mem_write hc
  · exact ha
  · exact hm c hc

theorem CommandEffect.wf {s t : State} (h : CommandEffect s t) (hs : s.Wf) : t.Wf := by
  have hv : t.verdict ∈ verdictValues := by
    obtain e | ⟨v, e⟩ := h.verdict
    · exact e ▸ hs.verdict
    · exact e ▸ v.value_mem_verdictValues
  have hcfg : t.cfg.wf = true := h.cfg ▸ hs.cfg
  obtain ⟨hbuf, hlen⟩ | ⟨hlt, hlen, b, hbuf⟩ := h.container
  · refine ⟨hcfg, ?_, hv, hbuf ▸ hs.buf, ?_⟩
    · obtain e | e := hlen
      · rw [e, h.cfg]
        exact hs.len
      · simp [e]
    · rw [hbuf, h.cfg]
      exact hs.inside
  · refine ⟨hcfg, ?_, hv, hbuf ▸ Memory.wf_write _ _ hs.buf, ?_⟩
    · rw [hlen, h.cfg]
      exact toNat_succ_le_of_lt hlt
    · rw [hbuf, h.cfg]
      exact Memory.inside_write hlt hs.inside

theorem State.Wf.setInput {s : State} (hs : s.Wf) (l : List Event) : (s.setInput l).Wf :=
  ⟨hs.cfg, hs.len, hs.verdict, hs.buf, hs.inside⟩

theorem State.Wf.resetRegisters {s : State} (hs : s.Wf) : s.resetRegisters.Wf :=
  ⟨hs.cfg, Nat.zero_le _, Verdict.none.value_mem_verdictValues, hs.buf, hs.inside⟩

theorem State.Wf.next {s t : State} (hs : s.Wf) (h : step s = .next t) : t.Wf := by
  match hin : s.input with
  | [] =>
    cases (step_of_input_nil hin).symm.trans h
    exact hs
  | .reset :: rest =>
    cases (step_of_input_reset hin).symm.trans h
    exact (hs.setInput rest).resetRegisters
  | .command cw :: rest =>
    rw [step_of_input_command hin] at h
    exact (commandEffect_of_runWord h).wf (hs.setInput rest)

theorem State.resetFor_wf {c : Config} (hc : c.wf = true) : (State.resetFor c).Wf :=
  ⟨hc, Nat.zero_le _, Verdict.none.value_mem_verdictValues, Memory.wf_nil, by simp⟩

/-- After reset the gate is closed, so there is nothing to hold of the container. -/
theorem State.resetFor_passInv (c : Config) : (State.resetFor c).PassInv := by
  intro hgate
  simp [State.gate] at hgate

theorem State.resetFor_verdictInv (c : Config) : (State.resetFor c).VerdictInv := .inl rfl

/-! ## Runs -/

theorem run_succ_of_step {s t : State} (h : step s = .next t) (n : Nat) :
    Host.Core.run Sys2Proof.core (n + 1) s = Host.Core.run Sys2Proof.core n t := by
  have hcore : Sys2Proof.core.step s = .next t := h
  simp only [Host.Core.run, hcore]

theorem commandCount_cons (e : Event) (es : List Event) :
    commandCount (e :: es) = commandCount [e] + commandCount es := by
  cases e with
  | command cw => exact Nat.add_comm _ _
  | reset => exact (Nat.zero_add _).symm

/-- What a stretch of a run owes: the invariant kept, the earlier responses unchanged, one more per command word in
`es`. -/
structure Answered (es : List Event) (s t : State) : Prop where
  wf : t.Wf
  count : t.responses.length = s.responses.length + commandCount es
  earlier : s.responses <+: t.responses

/-- Progress: a step takes the event presented next and answers it. -/
theorem step_answers {s : State} {e : Event} {rest : List Event} (hs : s.Wf) (hin : s.input = e :: rest) :
    ∃ t, step s = .next t ∧ t.input = rest ∧ Answered [e] s t := by
  obtain ⟨t, ht⟩ := step_isNext hs.len
  have hwf : t.Wf := hs.next ht
  cases e with
  | reset =>
    cases (step_of_input_reset hin).symm.trans ht
    exact ⟨_, ht, rfl, hwf, rfl, List.prefix_refl _⟩
  | command cw =>
    have heff := commandEffect_of_runWord ((step_of_input_command hin).symm.trans ht)
    obtain ⟨c, d, hr⟩ := heff.responses
    exact ⟨t, ht, heff.input, hwf, by simp [hr, commandCount], ⟨_, hr.symm⟩⟩

/-- One event answered, then the others. -/
theorem Answered.cons {e : Event} {es : List Event} {s u t : State} (h₁ : Answered [e] s u) (h₂ : Answered es u t) :
    Answered (e :: es) s t :=
  ⟨h₂.wf, by rw [h₂.count, h₁.count, commandCount_cons e es, Nat.add_assoc], h₁.earlier.trans h₂.earlier⟩

/-- By induction on the events presented, with `step_answers` for each. -/
theorem run_answers : ∀ (es : List Event) {s : State}, s.Wf → s.input = es →
    ∃ t, Host.Core.run Sys2Proof.core es.length s = .next t ∧ t.input = [] ∧ Answered es s t
  | [], s, hs, hin => ⟨s, rfl, hin, hs, rfl, List.prefix_refl _⟩
  | e :: es, s, hs, hin => by
    obtain ⟨u, hstep, hu, hsu⟩ := step_answers hs hin
    obtain ⟨t, hrun, ht, hut⟩ := run_answers es hsu.wf hu
    exact ⟨t, (run_succ_of_step hstep es.length).trans hrun, ht, hsu.cons hut⟩

/-! ## The statements -/

/-- Settles O3, by induction on the events presented. -/
theorem runAnswersEveryCommand : Obligations.RunAnswersEveryCommand := by
  intro s hs
  obtain ⟨t, hrun, hin, hans⟩ := run_answers s.input hs rfl
  exact ⟨t, hrun, hin, hans.wf, hans.count, hans.earlier⟩

/-- Settles O47, by what a command can leave. -/
theorem stepKeepsWf : Obligations.StepKeepsWf :=
  fun _ _ hs h => hs.next h

/-- Settles O51: every access of a command lies below `LEN`, or is the push at `LEN < BUFSZ`. -/
theorem stepNeverStopsWithinCapacity : Obligations.StepNeverStopsWithinCapacity :=
  fun _ hs => step_isNext hs

/-- Settles O46, one invariant at a time. -/
theorem resetMeetsInvariants : Obligations.ResetMeetsInvariants :=
  ⟨fun _ hc => State.resetFor_wf hc, State.resetFor_passInv, State.resetFor_verdictInv, State.resetFor_wf rfl⟩

end Sys2Proof.Machine

/-! PROOFS. Family `10_state.md`: what a command writes (the write table of R19, from one equation for `VAL.RUN`), and from
it the invariants of the verdict register, the stale bytes of `BUF`, and the statements on reset, load and read. -/

namespace Sys2Proof.Machine

/-! ## `VAL.RUN` in one equation -/

/-- The verdict and response data of step 5 on the fields `f` (R125). -/
def FooterData.judgement (f : FooterData) : Verdict × Word :=
  if f.kind = 0#32 then if f.orig = f.comp then (.passStored, f.orig) else (.failStored, f.orig)
  else if f.kind = 1#32 ∨ f.kind = 2#32 then (.passLz4, f.orig)
  else (.failKind, f.kind)

/-- The verdict and response data of `VAL.RUN` on the container as it is, the checks in their order (R121 to R126). -/
def State.judgement (s : State) : Verdict × Word :=
  if s.len.toNat < 20 then (.failShort, s.len)
  else if ¬ s.TagOk then (.failMagic, BitVec.ofNat 32 (s.memRead (s.len.toNat - 4) 4))
  else if ¬ s.SizeOk then (.failSize, BitVec.ofNat 32 (s.len.toNat - 20))
  else if crc32 s.payload ≠ s.footerAt.csum then (.failCsum, crc32 s.payload)
  else s.footerAt.judgement

/-- The state `VAL.RUN` leaves: `F` is written where the tag is right, `CRC_ACC` where the size is right, `VERDICT` always
(R126). -/
def State.validated (s : State) : State :=
  (((s.setF (if s.TagOk then s.footerAt else s.f)).setCrcAcc (if s.SizeOk then crcRaw s.payload else s.crcAcc)).setVerdict
    s.judgement.1).answer s.judgement.1.code s.judgement.2

/-- The verdict is the outcome `Safety.lean` states. -/
theorem State.judgement_value (s : State) : s.judgement.1.value = s.outcome := by
  unfold State.judgement State.outcome FooterData.judgement
  split_ifs <;> rfl

theorem valKind_eq_judge (s : State) : valKind s = judge s s.f.judgement.1 s.f.judgement.2 := by
  unfold valKind FooterData.judgement
  split_ifs <;> rfl

/-- A container too short leaves the verdict only (R121). -/
theorem State.validated_of_short {s : State} (h : s.len.toNat < 20) :
    s.validated = (s.setVerdict .failShort).answer .eShort s.len := by
  have htag : ¬ s.TagOk := fun k => absurd k.1 (Nat.not_le.mpr h)
  have hsize : ¬ s.SizeOk := fun k => htag k.1
  simp only [State.validated, State.judgement, if_pos h, if_neg htag, if_neg hsize]
  rfl

/-- A wrong tag leaves the verdict only (R122). -/
theorem State.validated_of_not_tagOk {s : State} (hlong : 20 ≤ s.len.toNat) (htag : ¬ s.TagOk) :
    s.validated = (s.setVerdict .failMagic).answer .eMagic (BitVec.ofNat 32 (s.memRead (s.len.toNat - 4) 4)) := by
  have hsize : ¬ s.SizeOk := fun k => htag k.1
  simp only [State.validated, State.judgement, if_neg (Nat.not_lt.mpr hlong), if_pos htag, if_neg htag, if_neg hsize]
  rfl

/-- A wrong size leaves the verdict and `F` (R123). -/
theorem State.validated_of_not_sizeOk {s : State} (htag : s.TagOk) (hsize : ¬ s.SizeOk) :
    s.validated = ((s.setF s.footerAt).setVerdict .failSize).answer .eSize (BitVec.ofNat 32 (s.len.toNat - 20)) := by
  simp only [State.validated, State.judgement, if_neg (Nat.not_lt.mpr htag.1), if_pos htag, if_neg (not_not.mpr htag),
    if_neg hsize, if_pos hsize]
  rfl

/-- From the checksum on, `F` and `CRC_ACC` are written too (R124, R125). -/
theorem State.validated_of_sizeOk {s : State} (hsize : s.SizeOk) :
    s.validated = (((s.setF s.footerAt).setCrcAcc (crcRaw s.payload)).setVerdict s.judgement.1).answer
      s.judgement.1.code s.judgement.2 := by
  simp only [State.validated, if_pos hsize.1, if_pos hsize]

theorem State.judgement_of_sizeOk {s : State} (hsize : s.SizeOk) :
    s.judgement =
      if crc32 s.payload ≠ s.footerAt.csum then (.failCsum, crc32 s.payload) else s.footerAt.judgement := by
  simp only [State.judgement, if_neg (Nat.not_lt.mpr hsize.1.1), if_neg (not_not.mpr hsize.1), if_neg (not_not.mpr hsize)]

/-- Step 4 and step 5, with the fields of the footer in `F`. -/
theorem valChecksum_setF_footerAt {s : State} (hsize : s.SizeOk) (hs : s.len.toNat ≤ s.cfg.bufsz.toNat) :
    valChecksum (s.setF s.footerAt) = .next s.validated := by
  have hpay : 0 + (s.setF s.footerAt).plen ≤ (s.setF s.footerAt).cfg.bufsz.toNat := by
    simp only [State.plen, State.setF_len, State.setF_cfg]
    omega
  have hpayload : (s.setF s.footerAt).buf.slice 0 (s.setF s.footerAt).plen = s.payload := rfl
  have hraw : crc32 s.payload ^^^ crcOnes = crcRaw s.payload := by simp [crc32]
  rw [valChecksum, State.withBytes_of_le hpay, hpayload, hraw, valKind_eq_judge, State.validated_of_sizeOk hsize,
    State.judgement_of_sizeOk hsize]
  by_cases hsum : crc32 s.payload = s.footerAt.csum <;> simp [hsum, Verdict.code]

/-- Step 3, with the fields of the footer in `F`. -/
theorem valSize_setF_footerAt {s : State} (htag : s.TagOk) (hs : s.len.toNat ≤ s.cfg.bufsz.toNat) :
    valSize (s.setF s.footerAt) = .next s.validated := by
  by_cases hsize : s.len.toNat - 20 = s.footerAt.comp.toNat
  · exact (if_pos hsize).trans (valChecksum_setF_footerAt ⟨htag, hsize⟩ hs)
  · rw [State.validated_of_not_sizeOk htag fun h => hsize h.2]
    exact if_neg hsize

/-- `VAL.RUN` ends wherever the container it reads lies inside `BUF`. -/
theorem execValRun_eq {s : State} (hs : 20 ≤ s.len.toNat → s.len.toNat ≤ s.cfg.bufsz.toNat) :
    execValRun s = .next s.validated := by
  by_cases hshort : s.len.toNat < 20
  · rw [State.validated_of_short hshort]
    exact if_pos hshort
  · have hlong : 20 ≤ s.len.toNat := Nat.not_lt.mp hshort
    have hfoot : s.len.toNat - 20 + 20 ≤ s.cfg.bufsz.toNat := by have := hs hlong; omega
    rw [execValRun, if_neg hshort, valMagic, State.plen, State.withBytes_of_le hfoot, decodeFooter_slice s hlong]
    by_cases htag : s.tag = magic
    · rw [if_pos htag]
      exact valSize_setF_footerAt ⟨hlong, htag⟩ (hs hlong)
    · rw [if_neg htag, State.validated_of_not_tagOk hlong fun h => htag h.2, tagOfBytes_slice,
        show s.len.toNat - 20 + 16 = s.len.toNat - 4 by omega]
      rfl

/-- The inversion lemma of `VAL.RUN`: the container lies inside `BUF`, and the next state is the one above. -/
theorem execValRun_next_iff {s t : State} :
    execValRun s = .next t ↔ (20 ≤ s.len.toNat → s.len.toNat ≤ s.cfg.bufsz.toNat) ∧ t = s.validated := by
  constructor
  · intro h
    have hs : 20 ≤ s.len.toNat → s.len.toNat ≤ s.cfg.bufsz.toNat := by
      intro hlong
      rw [execValRun, if_neg (Nat.not_lt.mpr hlong), valMagic, State.plen, State.withBytes_next] at h
      omega
    rw [execValRun_eq hs] at h
    cases h
    exact ⟨hs, rfl⟩
  · rintro ⟨hs, rfl⟩
    exact execValRun_eq hs

/-! ## The write table -/

/-- Settles O52: the commands with several ends by their inversion lemmas, the others by their definition. -/
theorem writeTable : Obligations.WriteTable := by
  intro i s t h
  cases i with
  | sysNop | sysRst | sysStat | crcInit | crcUpd | crcGet | bufClr | bufLen | ftrRdorig | ftrRdcomp | ftrRdcsum | ftrRdkind
  | ftrWrorig | ftrWrcomp | ftrWrcsum | ftrWrkind =>
    cases h
    exact ⟨rfl, rfl, rfl, rfl, rfl, rfl, rfl⟩
  | bufPush b =>
    obtain ⟨hfull, rfl⟩ | ⟨hroom, -, rfl⟩ := execBufPush_next h
    · exact ⟨rfl, rfl, rfl, (if_pos hfull).symm, (if_pos hfull).symm, rfl, (if_pos hfull).symm⟩
    · exact ⟨rfl, rfl, rfl, (if_neg hroom).symm, (if_neg hroom).symm, rfl, (if_neg hroom).symm⟩
  | ftrParse =>
    obtain ⟨hshort, rfl⟩ | ⟨-, hno, rfl⟩ | ⟨htag, rfl⟩ := execFtrParse_next h
    · have hno : ¬ s.TagOk := fun k => absurd k.1 (Nat.not_le.mpr hshort)
      exact ⟨rfl, rfl, rfl, rfl, rfl, (if_neg hno).symm, (if_neg hno).symm⟩
    · exact ⟨rfl, rfl, rfl, rfl, rfl, (if_neg hno).symm, (if_neg hno).symm⟩
    · exact ⟨rfl, rfl, rfl, rfl, rfl, (if_pos htag).symm, (if_pos htag).symm⟩
  | ftrEncb b =>
    obtain ⟨-, rfl⟩ | ⟨-, x, -, rfl⟩ := execFtrEncb_next h <;> exact ⟨rfl, rfl, rfl, rfl, rfl, rfl, rfl⟩
  | valRun =>
    obtain ⟨-, rfl⟩ := execValRun_next_iff.mp h
    exact ⟨rfl, rfl, rfl, rfl, rfl, rfl, s.judgement_value⟩
  | payRd v =>
    obtain ⟨-, rfl⟩ | ⟨-, -, rfl⟩ | ⟨-, -, -, rfl⟩ := execPayRd_next h <;> exact ⟨rfl, rfl, rfl, rfl, rfl, rfl, rfl⟩

/-- Settles O53: the write table leaves `BUF`, or writes the one byte at index `LEN`. -/
theorem onlyThePushedByteChanges : Obligations.OnlyThePushedByteChanges := by
  intro i s t a hwf h ha
  obtain ⟨-, -, -, hbuf, -, -, -⟩ := writeTable i s t h
  cases i with
  | bufPush b =>
    by_cases hfull : s.len = s.cfg.bufsz
    · rw [hbuf.trans (if_pos hfull)]
    · have hne : a ≠ s.len.toNat := by simpa [hfull] using ha
      rw [hbuf.trans (if_neg hfull), Memory.read_write_of_wf hwf, if_neg hne]
  | _ => exact congrArg (Memory.read · a) hbuf

/-- No command but `BUF.PUSH` writes `BUF` or makes the container longer. -/
theorem container_of_exec {i : Instr} {s t : State} (hi : ∀ b, i ≠ .bufPush b) (h : exec i s = .next t) :
    t.buf = s.buf ∧ (t.len = s.len ∨ t.len = 0#32) := by
  obtain ⟨-, -, -, hbuf, hlen, -, -⟩ := writeTable i s t h
  cases i with
  | bufPush b => exact absurd rfl (hi b)
  | sysRst | bufClr => exact ⟨hbuf, .inr hlen⟩
  | _ => exact ⟨hbuf, .inl hlen⟩

/-! ## The verdict register -/

/-- The two states have the same container, `F` and verdict: all that R16 and R21 speak of. -/
structure State.SameJudged (s t : State) : Prop where
  buf : t.buf = s.buf
  len : t.len = s.len
  f : t.f = s.f
  verdict : t.verdict = s.verdict

theorem State.SameJudged.eq_update {s t : State} (h : s.SameJudged t) :
    t = { s with cfg := t.cfg, crcAcc := t.crcAcc, input := t.input, responses := t.responses } := by
  obtain ⟨hbuf, hlen, hf, hv⟩ := h
  rw [← hbuf, ← hlen, ← hf, ← hv]

theorem State.SameJudged.verdictInv {s t : State} (h : s.SameJudged t) (hs : s.VerdictInv) : t.VerdictInv := by
  rw [h.eq_update]
  exact hs

theorem State.SameJudged.passInv {s t : State} (h : s.SameJudged t) (hs : s.PassInv) : t.PassInv := by
  rw [h.eq_update]
  intro hgate
  obtain ⟨htag, hfields, hsize, hsum, hstored, hlz4⟩ := hs hgate
  exact ⟨htag, hfields, hsize, hsum, hstored, hlz4⟩

/-- The state `VAL.RUN` leaves holds the outcome of its container, and the footer where the tag is right. -/
theorem State.validated_verdictInv (s : State) : s.validated.VerdictInv :=
  .inr ⟨s.judgement_value, fun htag : s.TagOk => if_pos htag⟩

/-- R21 where `F` holds the footer: what is to be known of the container. -/
theorem State.passed_of_footerAt {s : State} (hf : s.f = s.footerAt) (hsize : s.SizeOk)
    (hsum : crc32 s.payload = s.footerAt.csum)
    (hstored : s.verdict = 0x01#8 → s.footerAt.kind = 0#32 ∧ s.footerAt.orig = s.footerAt.comp)
    (hlz4 : s.verdict = 0x02#8 → s.footerAt.kind = 1#32 ∨ s.footerAt.kind = 2#32) : s.Passed :=
  ⟨hsize.1, hf, by rw [hf, hsize.2], by rw [hf, hsum], by rwa [hf], by rwa [hf]⟩

/-- A passing outcome means that every check has passed: the failing outcomes are other values (R16, R126). -/
theorem State.passed_of_outcome {s : State} (ho : s.outcome = 0x01#8 ∨ s.outcome = 0x02#8)
    (hv : s.verdict = s.outcome) (hf : s.TagOk → s.f = s.footerAt) : s.Passed := by
  unfold State.outcome at ho hv
  split_ifs at ho hv with hshort htag hsize hsum hkind horig hlz4
  all_goals simp at ho
  · exact State.passed_of_footerAt (hf htag) hsize (not_not.mp hsum) (fun _ => ⟨hkind, horig⟩) fun h => by simp [hv] at h
  · exact State.passed_of_footerAt (hf htag) hsize (not_not.mp hsum) (fun h => by simp [hv] at h) fun _ => hlz4

theorem State.VerdictInv.passInv {s : State} (h : s.VerdictInv) : s.PassInv := by
  intro hgate
  have hpass : s.verdict = 0x01#8 ∨ s.verdict = 0x02#8 := by simpa [State.gate] using hgate
  obtain hnone | ⟨hv, hf⟩ := h
  · simp [hnone] at hpass
  · exact State.passed_of_outcome (hv ▸ hpass) hv hf

/-- Every command but `VAL.RUN` keeps the container, `F` and the verdict, or drops the verdict (R20). -/
theorem sameJudged_or_none_of_exec {i : Instr} {s t : State} (hi : i ≠ .valRun) (h : exec i s = .next t) :
    s.SameJudged t ∨ t.verdict = 0x00#8 := by
  obtain ⟨-, -, -, hbuf, hlen, hf, hv⟩ := writeTable i s t h
  cases i with
  | valRun => exact absurd rfl hi
  | sysRst | bufClr | ftrWrorig | ftrWrcomp | ftrWrcsum | ftrWrkind => exact .inr hv
  | bufPush b =>
    by_cases hfull : s.len = s.cfg.bufsz
    · exact .inl ⟨hbuf.trans (if_pos hfull), hlen.trans (if_pos hfull), hf, hv.trans (if_pos hfull)⟩
    · exact .inr (hv.trans (if_neg hfull))
  | ftrParse =>
    by_cases htag : s.TagOk
    · exact .inr (hv.trans (if_pos htag))
    · exact .inl ⟨hbuf, hlen, hf.trans (if_neg htag), hv.trans (if_neg htag)⟩
  | _ => exact .inl ⟨hbuf, hlen, hf, hv⟩

/-- Settles O54: from the write table; an `OK` of `BUF.PUSH` or `FTR.PARSE` means that the byte or the fields were taken. -/
theorem verdictInvalidation : Obligations.VerdictInvalidation := by
  refine ⟨fun i s t hi h hchange => ?_, fun i s t d h hr hi => ?_, fun b s t h => ?_⟩
  · obtain ⟨hbuf, hlen, hf, -⟩ | hv := sameJudged_or_none_of_exec hi h
    · simp [hbuf, hlen, hf] at hchange
    · exact hv
  · obtain rfl | ⟨b, rfl⟩ | rfl | hrest := hi
    · cases h
      rfl
    · obtain ⟨-, rfl⟩ | ⟨-, -, rfl⟩ := execBufPush_next h
      · simp [Code.value] at hr
      · rfl
    · obtain ⟨-, rfl⟩ | ⟨-, -, rfl⟩ | ⟨-, rfl⟩ := execFtrParse_next h
      · simp [Code.value] at hr
      · simp [Code.value] at hr
      · rfl
    · obtain ⟨v, rfl⟩ | ⟨v, rfl⟩ | ⟨v, rfl⟩ | ⟨v, rfl⟩ | rfl := hrest <;>
      · cases h
        rfl
  · obtain h | h := h <;>
    · cases h
      rfl

theorem sameJudged_or_verdictInv_of_runWord {cw : CmdWord} {s t : State} (h : runWord cw s = .next t) :
    s.SameJudged t ∨ t.VerdictInv := by
  unfold runWord at h
  split at h
  · next i _ =>
    by_cases hi : i = .valRun
    · subst hi
      obtain ⟨-, rfl⟩ := execValRun_next_iff.mp h
      exact .inr s.validated_verdictInv
    · exact (sameJudged_or_none_of_exec hi h).imp_right .inl
  · cases h
    exact .inl ⟨rfl, rfl, rfl, rfl⟩

/-- The inversion lemma of `step`: nothing is presented, a reset event is taken, or a command word. -/
theorem step_next {s t : State} (h : step s = .next t) :
    t = s ∨ (∃ rest, t = (s.setInput rest).resetRegisters) ∨ ∃ cw rest, runWord cw (s.setInput rest) = .next t := by
  match hin : s.input with
  | [] =>
    cases (step_of_input_nil hin).symm.trans h
    exact .inl rfl
  | .reset :: rest =>
    cases (step_of_input_reset hin).symm.trans h
    exact .inr (.inl ⟨rest, rfl⟩)
  | .command cw :: rest => exact .inr (.inr ⟨cw, rest, (step_of_input_command hin).symm.trans h⟩)

/-- A step leaves all that the invariants speak of, or makes the verdict register true of the container. -/
theorem sameJudged_or_verdictInv_of_step {s t : State} (h : step s = .next t) : s.SameJudged t ∨ t.VerdictInv := by
  obtain rfl | ⟨rest, rfl⟩ | ⟨cw, rest, hrun⟩ := step_next h
  · exact .inl ⟨rfl, rfl, rfl, rfl⟩
  · exact .inr (.inl rfl)
  · obtain ⟨hbuf, hlen, hf, hv⟩ | hinv := sameJudged_or_verdictInv_of_runWord hrun
    · exact .inl ⟨hbuf, hlen, hf, hv⟩
    · exact .inr hinv

/-- Settles O49: what the verdict speaks of is kept, or the verdict is made anew. -/
theorem stepKeepsVerdictInvariant : Obligations.StepKeepsVerdictInvariant := by
  intro s t hs h
  obtain hsame | hinv := sameJudged_or_verdictInv_of_step h
  · exact hsame.verdictInv hs
  · exact hinv

/-- Settles O48: a verdict made anew is true of the container, so a passing one means a pass. -/
theorem stepKeepsPassInvariant : Obligations.StepKeepsPassInvariant := by
  intro s t _ hs h
  obtain hsame | hinv := sameJudged_or_verdictInv_of_step h
  · exact hsame.passInv hs
  · exact hinv.passInv

/-- A property that every step keeps holds at the end of every run. -/
theorem run_induction {P : State → Prop} (hstep : ∀ s t, P s → step s = .next t → P t) :
    ∀ (n : Nat) {s t : State}, P s → Host.Core.run Sys2Proof.core n s = .next t → P t
  | 0, s, t, hs, h => by
    cases h
    exact hs
  | n + 1, s, t, hs, h => by
    simp only [Host.Core.run] at h
    split at h
    · next u hu => exact run_induction hstep n (hstep s u hs hu) h
    · cases h
    · cases h

/-- Settles O50: the state and verdict invariants hold at reset and every step keeps them, and the second gives R21. -/
theorem everyReachableStateMeetsTheInvariants : Obligations.EveryReachableStateMeetsTheInvariants := by
  intro c es n t hc h
  have hreset : ((State.resetFor c).setInput es).Wf ∧ ((State.resetFor c).setInput es).VerdictInv :=
    ⟨(State.resetFor_wf hc).setInput es, .inl rfl⟩
  obtain ⟨hwf, hinv⟩ := run_induction (P := fun s => s.Wf ∧ s.VerdictInv)
    (fun s t hs hst => ⟨hs.1.next hst, stepKeepsVerdictInvariant s t hs.2 hst⟩) n hreset h
  exact ⟨hwf, hinv.passInv, hinv⟩

/-! ## `BUF.PUSH` where there is room -/

/-- The state a `BUF.PUSH` leaves that finds room (R91). -/
def State.pushed (s : State) (b : Byte) : State :=
  (((s.setBuf (s.buf.write s.len.toNat b)).setLen (s.len + 1#32)).setVerdict .none).answer .ok 0#32

theorem execBufPush_of_lt {s : State} (h : s.len.toNat < s.cfg.bufsz.toNat) (b : Byte) :
    execBufPush b s = .next (s.pushed b) := by
  have hroom : s.len ≠ s.cfg.bufsz := fun e => by rw [e] at h; omega
  rw [execBufPush, if_neg hroom, State.writeByte_of_lt h]
  rfl

/-- The length after a push that finds room does not wrap (R91). -/
theorem State.toNat_len_pushed {s : State} (h : s.len.toNat < s.cfg.bufsz.toNat) (b : Byte) :
    (s.pushed b).len.toNat = s.len.toNat + 1 := by
  have hlen : (s.pushed b).len = s.len + 1#32 := rfl
  rw [hlen]
  bv_omega

/-- The container after a push that finds room. -/
theorem State.container_pushed {s : State} (hs : s.buf.wf = true) (h : s.len.toNat < s.cfg.bufsz.toNat) (b : Byte) :
    (s.pushed b).container = s.container ++ [b] := by
  have hbuf : (s.pushed b).buf = s.buf.write s.len.toNat b := rfl
  have hkept : (s.buf.write s.len.toNat b).slice 0 s.len.toNat = s.buf.slice 0 s.len.toNat :=
    Memory.slice_congr 0 _ fun x _ hx => by rw [Memory.read_write_of_wf hs, if_neg (by omega)]
  unfold State.container
  rw [hbuf, State.toNat_len_pushed h, Memory.slice_append, hkept, Memory.slice_succ, Nat.zero_add,
    Memory.read_write_of_wf hs, if_pos rfl, Memory.slice_zero]

/-! ## Bytes at indexes `>= LEN` -/

/-- A slice below `LEN` reads the container only. -/
theorem State.SameContainer.slice {s t : State} (h : s.SameContainer t) {a n : Nat} (ha : a + n ≤ s.len.toNat) :
    s.buf.slice a n = t.buf.slice a n :=
  Memory.slice_congr a n fun x _ hx => h.bytes x (by omega)

theorem State.SameContainer.memRead {s t : State} (h : s.SameContainer t) {a n : Nat} (ha : a + n ≤ s.len.toNat) :
    s.memRead a n = t.memRead a n :=
  congrArg leValue (h.slice ha)

theorem State.SameContainer.tag {s t : State} (h : s.SameContainer t) (hs : 20 ≤ s.len.toNat) : s.tag = t.tag := by
  unfold State.tag
  rw [← h.len, h.slice (by omega)]

theorem State.SameContainer.payload {s t : State} (h : s.SameContainer t) : s.payload = t.payload := by
  unfold State.payload
  rw [← h.len, h.slice (by omega)]

theorem State.SameContainer.footerAt {s t : State} (h : s.SameContainer t) (hs : 20 ≤ s.len.toNat) :
    s.footerAt = t.footerAt := by
  unfold State.footerAt
  rw [← h.len, h.memRead (by omega), h.memRead (by omega), h.memRead (by omega), h.memRead (by omega)]

theorem State.SameContainer.tagOk {s t : State} (h : s.SameContainer t) : s.TagOk ↔ t.TagOk := by
  unfold State.TagOk
  rw [← h.len]
  exact and_congr_right fun hs => by rw [h.tag hs]

theorem State.SameContainer.sizeOk {s t : State} (h : s.SameContainer t) : s.SizeOk ↔ t.SizeOk := by
  unfold State.SizeOk
  rw [h.tagOk, ← h.len]
  exact and_congr_right fun ht => by rw [h.footerAt (h.tagOk.mpr ht).1]

/-- The fields taken from the footer, or `f` where the tag is wrong. -/
theorem State.SameContainer.ite_footerAt {s t : State} (h : s.SameContainer t) (f : FooterData) :
    (if s.TagOk then s.footerAt else f) = if t.TagOk then t.footerAt else f :=
  if_ctx_congr h.tagOk (fun ht => h.footerAt (h.tagOk.mpr ht).1) fun _ => rfl

/-- The accumulator of the payload, or `a` where the size is wrong. -/
theorem State.SameContainer.ite_crcRaw {s t : State} (h : s.SameContainer t) (a : Word) :
    (if s.SizeOk then crcRaw s.payload else a) = if t.SizeOk then crcRaw t.payload else a :=
  if_congr h.sizeOk (congrArg crcRaw h.payload) rfl

/-- The judgement is a function of the container (R126). -/
theorem State.SameContainer.judgement {s t : State} (h : s.SameContainer t) : s.judgement = t.judgement := by
  unfold State.judgement
  by_cases hshort : s.len.toNat < 20
  · simp only [← h.len, if_pos hshort]
  · have hs : 20 ≤ s.len.toNat := Nat.not_lt.mp hshort
    have htag : s.len.toNat - 4 + 4 ≤ s.len.toNat := by omega
    simp only [← h.len, ← h.tagOk, ← h.sizeOk, ← h.payload, ← h.footerAt hs, ← h.memRead htag]

/-- `VAL.RUN` reads no byte at an index `>= LEN`. -/
theorem State.validated_setBuf {s : State} {m : Memory} (h : s.SameContainer (s.setBuf m)) :
    (s.setBuf m).validated = s.validated.setBuf m := by
  unfold State.validated
  rw [← h.judgement, ← h.ite_footerAt, ← h.ite_crcRaw]
  rfl

theorem execValRun_setBuf {s t : State} {m : Memory} (hm : s.SameContainer (s.setBuf m)) (h : execValRun s = .next t) :
    execValRun (s.setBuf m) = .next (t.setBuf m) := by
  obtain ⟨hs, rfl⟩ := execValRun_next_iff.mp h
  exact execValRun_next_iff.mpr ⟨hs, (State.validated_setBuf hm).symm⟩

/-- A read below `LEN` goes on with the same bytes. -/
theorem State.withBytes_setBuf {s t : State} {m : Memory} (hm : s.SameContainer (s.setBuf m)) {a n : Nat}
    (ha : a + n ≤ s.len.toNat) {k k' : List Byte → Result}
    (hk : ∀ bs, k bs = .next t → k' bs = .next (t.setBuf m)) (h : s.withBytes a n k = .next t) :
    (s.setBuf m).withBytes a n k' = .next (t.setBuf m) := by
  obtain ⟨hb, h⟩ := State.withBytes_next.mp h
  exact State.withBytes_next.mpr ⟨hb, hk _ (hm.slice ha ▸ h)⟩

/-- `FTR.PARSE` reads the last twenty bytes below `LEN`. -/
theorem execFtrParse_setBuf {s t : State} {m : Memory} (hm : s.SameContainer (s.setBuf m))
    (h : execFtrParse s = .next t) : execFtrParse (s.setBuf m) = .next (t.setBuf m) := by
  unfold execFtrParse at h ⊢
  rw [State.setBuf_len]
  split at h
  · next hshort =>
    cases h
    exact if_pos hshort
  · next hlong =>
    rw [if_neg hlong]
    refine State.withBytes_setBuf hm (by omega) (fun bs hbs => ?_) h
    generalize decodeFooter bs = o at hbs ⊢
    cases o <;> cases hbs <;> rfl

/-- `PAY.RD` reads one byte below `LEN - 20`. -/
theorem execPayRd_setBuf {v : Word} {s t : State} {m : Memory} (hm : s.SameContainer (s.setBuf m))
    (h : execPayRd v s = .next t) : execPayRd v (s.setBuf m) = .next (t.setBuf m) := by
  have hgate : (s.setBuf m).gate = s.gate := rfl
  rw [execPayRd_eq] at h ⊢
  rw [hgate, State.setBuf_len]
  split_ifs at h ⊢
  · refine State.withBytes_setBuf hm (by omega) (fun bs hbs => ?_) h
    cases hbs
    rfl
  · cases h
    rfl
  · cases h
    rfl

/-- `FTR.ENCB` reads no byte of `BUF`. -/
theorem execFtrEncb_setBuf {b : Byte} {s t : State} (m : Memory) (h : execFtrEncb b s = .next t) :
    execFtrEncb b (s.setBuf m) = .next (t.setBuf m) := by
  unfold execFtrEncb at h ⊢
  rw [State.setBuf_f]
  generalize (encodeFooter s.f)[indexOfByte b]? = o at h ⊢
  cases o <;> cases h <;> rfl

/-- Every command but `BUF.PUSH` does the same whatever stands in `BUF` beyond the container, and leaves it there. -/
theorem exec_setBuf {i : Instr} {s t : State} {m : Memory} (hi : ∀ b, i ≠ .bufPush b)
    (hm : s.SameContainer (s.setBuf m)) (h : exec i s = .next t) : exec i (s.setBuf m) = .next (t.setBuf m) := by
  cases i with
  | bufPush b => exact absurd rfl (hi b)
  | ftrParse => exact execFtrParse_setBuf hm h
  | ftrEncb b => exact execFtrEncb_setBuf m h
  | valRun => exact execValRun_setBuf hm h
  | payRd v => exact execPayRd_setBuf hm h
  | _ =>
    cases h
    rfl

/-- Two states that differ in stale bytes only are one state with two buffers. -/
theorem State.SameButStale.exists_eq_setBuf {s t : State} (h : s.SameButStale t) : ∃ m, t = s.setBuf m := by
  obtain ⟨hcfg, hf, hacc, hlen, hv, hin, hr, -⟩ := h
  cases s
  cases t
  simp_all [State.setBuf]

theorem State.sameButStale_setBuf {s : State} {m : Memory} (hm : ∀ a, a < s.len.toNat → s.buf.read a = m.read a) :
    s.SameButStale (s.setBuf m) :=
  ⟨rfl, rfl, rfl, rfl, rfl, rfl, rfl, hm⟩

/-- The byte pushed covers a stale one at its index. -/
theorem State.sameButStale_pushed {s t : State} (hs : s.buf.wf = true) (ht : t.buf.wf = true) (hst : s.SameButStale t)
    (hlt : s.len.toNat < s.cfg.bufsz.toNat) (b : Byte) : (s.pushed b).SameButStale (t.pushed b) := by
  obtain ⟨m, rfl⟩ := hst.exists_eq_setBuf
  have hm : m.wf = true := ht
  refine ⟨rfl, rfl, rfl, rfl, rfl, rfl, rfl, fun a ha => ?_⟩
  rw [State.toNat_len_pushed hlt] at ha
  have hread : (s.buf.write s.len.toNat b).read a = (m.write s.len.toNat b).read a := by
    rw [Memory.read_write_of_wf hs, Memory.read_write_of_wf hm]
    split
    · rfl
    · exact hst.bytes a (by omega)
  exact hread

theorem sameButStale_of_execBufPush {b : Byte} {s t s' : State} (hs : s.buf.wf = true) (ht : t.buf.wf = true)
    (hst : s.SameButStale t) (h : execBufPush b s = .next s') : ∃ t', execBufPush b t = .next t' ∧ s'.SameButStale t' := by
  obtain ⟨hfull, rfl⟩ | ⟨-, hlt, rfl⟩ := execBufPush_next h
  · have hfull' : t.len = t.cfg.bufsz := by rw [← hst.len, ← hst.cfg, hfull]
    obtain ⟨m, rfl⟩ := hst.exists_eq_setBuf
    exact ⟨_, if_pos hfull', State.sameButStale_setBuf (s := s.answer .eOverflow 0#32) hst.bytes⟩
  · have hlt' : t.len.toNat < t.cfg.bufsz.toNat := by rwa [← hst.len, ← hst.cfg]
    exact ⟨t.pushed b, execBufPush_of_lt hlt' b, State.sameButStale_pushed hs ht hst hlt b⟩

theorem sameButStale_of_exec {i : Instr} {s t s' : State} (hs : s.buf.wf = true) (ht : t.buf.wf = true)
    (hst : s.SameButStale t) (h : exec i s = .next s') : ∃ t', exec i t = .next t' ∧ s'.SameButStale t' := by
  by_cases hi : ∀ b, i ≠ .bufPush b
  · obtain ⟨m, rfl⟩ := hst.exists_eq_setBuf
    obtain ⟨hbuf, hlen⟩ := container_of_exec hi h
    have hle : s'.len.toNat ≤ s.len.toNat := by obtain e | e := hlen <;> simp [e]
    refine ⟨s'.setBuf m, exec_setBuf hi ⟨rfl, rfl, hst.bytes⟩ h, State.sameButStale_setBuf fun a ha => ?_⟩
    rw [hbuf]
    exact hst.bytes a (by omega)
  · obtain ⟨b, rfl⟩ := not_forall_not.mp hi
    exact sameButStale_of_execBufPush hs ht hst h

theorem sameButStale_of_runWord {cw : CmdWord} {s t s' : State} (hs : s.buf.wf = true) (ht : t.buf.wf = true)
    (hst : s.SameButStale t) (h : runWord cw s = .next s') : ∃ t', runWord cw t = .next t' ∧ s'.SameButStale t' := by
  unfold runWord at h ⊢
  split at h
  · exact sameButStale_of_exec hs ht hst h
  · cases h
    obtain ⟨m, rfl⟩ := hst.exists_eq_setBuf
    exact ⟨_, rfl, State.sameButStale_setBuf (s := s.answer .eIllegal 0#32) hst.bytes⟩

theorem sameButStale_of_step {s t s' : State} (hs : s.buf.wf = true) (ht : t.buf.wf = true)
    (hst : s.SameButStale t) (h : step s = .next s') : ∃ t', step t = .next t' ∧ s'.SameButStale t' := by
  match hin : s.input with
  | [] =>
    cases (step_of_input_nil hin).symm.trans h
    exact ⟨t, step_of_input_nil (hst.input ▸ hin), hst⟩
  | .reset :: rest =>
    cases (step_of_input_reset hin).symm.trans h
    refine ⟨_, step_of_input_reset (hst.input ▸ hin), ?_⟩
    exact ⟨hst.cfg, rfl, rfl, rfl, rfl, rfl, hst.responses, fun a ha => absurd ha (Nat.not_lt_zero a)⟩
  | .command cw :: rest =>
    rw [step_of_input_command hin] at h
    rw [step_of_input_command (hst.input ▸ hin)]
    have hrest : (s.setInput rest).SameButStale (t.setInput rest) :=
      ⟨hst.cfg, hst.f, hst.crcAcc, hst.len, hst.verdict, rfl, hst.responses, hst.bytes⟩
    exact sameButStale_of_runWord (s := s.setInput rest) hs ht hrest h

theorem CommandEffect.buf_wf {s t : State} (h : CommandEffect s t) (hs : s.buf.wf = true) : t.buf.wf = true := by
  obtain ⟨hbuf, -⟩ | ⟨-, -, b, hbuf⟩ := h.container
  · exact hbuf ▸ hs
  · exact hbuf ▸ Memory.wf_write _ _ hs

theorem buf_wf_of_step {s t : State} (hs : s.buf.wf = true) (h : step s = .next t) : t.buf.wf = true := by
  obtain rfl | ⟨rest, rfl⟩ | ⟨cw, rest, hrun⟩ := step_next h
  · exact hs
  · exact hs
  · exact (commandEffect_of_runWord hrun).buf_wf hs

/-- Settles O57: every read lies below `LEN`, and a push writes the same byte over either buffer. -/
theorem staleBytesAreUnobservable : Obligations.StaleBytesAreUnobservable := by
  intro s t s' hs ht hst h
  obtain ⟨t', ht', hst'⟩ := sameButStale_of_step hs ht hst h
  exact ⟨t', ht', hst', buf_wf_of_step hs h, buf_wf_of_step ht ht'⟩

/-! ## `BUF.LOAD` -/

theorem performAll_cons_of_next {i : Instr} {s u : State} (h : exec i s = .next u) (is : List Instr) :
    performAll (i :: is) s = performAll is u := by
  simp only [performAll, h]

/-- What a `BUF.LOAD` of `bs` that fits leaves: the bytes appended, the verdict dropped by the first of them, one `OK` for
each, and no other register changed. -/
structure Loaded (bs : List Byte) (s t : State) : Prop where
  wf : t.Wf
  container : t.container = s.container ++ bs
  len : t.len.toNat = s.len.toNat + bs.length
  verdict : t.verdict = if bs = [] then s.verdict else 0x00#8
  cfg : t.cfg = s.cfg
  f : t.f = s.f
  crcAcc : t.crcAcc = s.crcAcc
  input : t.input = s.input
  responses : t.responses = s.responses ++ List.replicate bs.length ⟨0x00#8, 0#32⟩

theorem Loaded.nil {s : State} (hs : s.Wf) : Loaded [] s s :=
  ⟨hs, by simp, rfl, rfl, rfl, rfl, rfl, rfl, by simp⟩

/-- One byte pushed, then the others loaded. -/
theorem Loaded.cons {b : Byte} {bs : List Byte} {s t : State} (hs : s.Wf) (hlt : s.len.toNat < s.cfg.bufsz.toNat)
    (h : Loaded bs (s.pushed b) t) : Loaded (b :: bs) s t where
  wf := h.wf
  container := by rw [h.container, State.container_pushed hs.buf hlt, List.append_assoc, List.singleton_append]
  len := by rw [h.len, State.toNat_len_pushed hlt, List.length_cons]; omega
  verdict := by
    rw [h.verdict, if_neg (List.cons_ne_nil b bs)]
    exact ite_self _
  cfg := h.cfg
  f := h.f
  crcAcc := h.crcAcc
  input := h.input
  responses := by
    rw [h.responses, List.length_cons, List.replicate_succ, ← List.singleton_append, ← List.append_assoc]
    rfl

/-- By induction on the bytes: each push finds room. -/
theorem performAll_bufLoad : ∀ (bs : List Byte) {s : State}, s.Wf → s.len.toNat + bs.length ≤ s.cfg.bufsz.toNat →
    ∃ t, performAll (bufLoad bs) s = .next t ∧ Loaded bs s t
  | [], s, hs, _ => ⟨s, rfl, Loaded.nil hs⟩
  | b :: bs, s, hs, hroom => by
    rw [List.length_cons] at hroom
    have hlt : s.len.toNat < s.cfg.bufsz.toNat := by omega
    have hpush : exec (.bufPush b) s = .next (s.pushed b) := execBufPush_of_lt hlt b
    have hfit : (s.pushed b).len.toNat + bs.length ≤ s.cfg.bufsz.toNat := by rw [State.toNat_len_pushed hlt]; omega
    obtain ⟨t, ht, hload⟩ := performAll_bufLoad bs (s := s.pushed b) ((commandEffect_of_exec hpush).wf hs) hfit
    exact ⟨t, (performAll_cons_of_next hpush (bufLoad bs)).trans ht, hload.cons hs hlt⟩

/-- Settles O27, by induction on the bytes. -/
theorem bufLoadAppends : Obligations.BufLoadAppends := by
  intro bs s hs hroom
  obtain ⟨t, ht, h⟩ := performAll_bufLoad bs hs hroom
  exact ⟨t, ht, h.wf, h.container, h.len, fun hne => h.verdict.trans (if_neg hne), h.cfg, h.f, h.crcAcc, h.input,
    h.responses⟩

/-! ## Reset and the payload port -/

/-- Inside the encoded footer `FTR.ENCB` answers its byte (R105). -/
theorem execFtrEncb_of_getElem? {s : State} {b x : Byte} (h : (encodeFooter s.f)[b.toNat]? = some x) :
    execFtrEncb b s = .next (s.answer .ok (zext32 x)) := by
  have hb : indexOfByte b = b.toNat := by
    simp [indexOfByte, zext32]
    omega
  rw [execFtrEncb, hb, h]
  rfl

/-- Settles O11: the reset values by definition, then what each reading command makes of them. -/
theorem resetValuesAndWhatTheyAnswer : Obligations.ResetValuesAndWhatTheyAnswer := by
  refine ⟨fun c => ⟨rfl, rfl, rfl, rfl⟩, fun s t h => ?_, fun s t rest hin h => ?_, fun s hs => ?_⟩
  · cases h
    exact ⟨rfl, rfl, rfl, rfl⟩
  · cases (step_of_input_reset hin).symm.trans h
    exact ⟨rfl, rfl, rfl, rfl⟩
  · obtain ⟨hf, hacc, hlen, hv⟩ := hs
    have hcrc : s.crcAcc ^^^ crcOnes = 0#32 := by rw [hacc]; rfl
    have hstat : s.statusWord = 0#32 := by rw [State.statusWord, hv]; rfl
    have hgate : s.gate = false := by rw [State.gate, hv]; rfl
    refine ⟨?_, ?_, ?_, fun v => ?_, fun b x hx => ?_⟩
    · exact congrArg (respond s .ok) hcrc
    · exact congrArg (respond s .ok) hlen
    · exact congrArg (respond s .ok) hstat
    · exact if_neg (by simp [hgate])
    · exact execFtrEncb_of_getElem? (by rw [hf]; exact hx)

/-- Settles O41: the gate is open, so the container has passed, and the byte answered is the payload's. -/
theorem payRdReleasesOnlyPassedPayload : Obligations.PayRdReleasesOnlyPassedPayload := by
  intro v s t d hinv h hr
  obtain ⟨-, rfl⟩ | ⟨-, -, rfl⟩ | ⟨hgate, hv, -, rfl⟩ := execPayRd_next h
  · simp [Code.value] at hr
  · simp [Code.value] at hr
  · have hpass := hinv hgate
    have hd : (s.buf.read v.toNat).setWidth 32 = d := by simpa [Code.value] using hr
    refine ⟨hpass, hpass.size ▸ hv, ?_, ?_⟩
    · rw [State.payload, Memory.getElem?_slice _ _ _ _ hv, Nat.zero_add, ← hd]
      simp
    · rw [← hd]
      have := (s.buf.read v.toNat).isLt
      simp
      omega

end Sys2Proof.Machine

/-! PROOFS. Family `20_memory.md`: what `MemRead` gives, byte by byte, and from that its little-endian sum. -/

namespace Sys2Proof.Machine

@[simp] theorem State.memRead_zero (s : State) (addr : Nat) : s.memRead addr 0 = 0 := rfl

/-- The byte at the lowest index is the least significant (R33). -/
theorem State.memRead_succ (s : State) (addr n : Nat) :
    s.memRead addr (n + 1) = (s.buf.read addr).toNat + 256 * s.memRead (addr + 1) n := rfl

/-- Settles O28, by induction on the count: the bytes after the lowest spell a number at the next address, whose every
weight grows by a factor of 256. -/
theorem memReadIsLittleEndian : Obligations.MemReadIsLittleEndian := by
  intro s addr n
  induction n generalizing addr with
  | zero => simp
  | succ n ih =>
    have hterm (k : Nat) : 256 * ((s.buf.read (addr + 1 + k)).toNat * 256 ^ k) =
        (s.buf.read (addr + (k + 1))).toNat * 256 ^ (k + 1) := by
      rw [Nat.add_assoc, Nat.add_comm 1 k]
      ring
    rw [State.memRead_succ, ih, Finset.mul_sum, Finset.sum_range_succ']
    simp only [hterm, Nat.add_zero, pow_zero, Nat.mul_one]
    exact Nat.add_comm _ _

end Sys2Proof.Machine

/-! PROOFS. Family `30_encoding.md`. The rows of R56 are read once, from the table of mnemonics: what a row gives its
opcode, its arguments and its words. From that the decoder, the masks, the illegal words and the count of the legal ones;
then the text form, whose digits are read back as written, and `FTR.ENC`. -/

namespace Sys2Proof.Machine

/-! ## The rows of R56 by format -/

/-- The rows of R56, each by its format and its commands. -/
def spellings : List Spelling := mnemonicTable.map Prod.snd

/-- The opcode of a row, which all its commands share. -/
def Spelling.opcode : Spelling → Byte
  | .z i => opcodeOf i
  | .b k => opcodeOf (k 0#8)
  | .w k => opcodeOf (k 0#32)

/-- The arguments the format of a row admits (R53 to R55). -/
def Spelling.Admits (arg : Word) : Spelling → Prop
  | .z _ => arg = 0#32
  | .b _ => arg.extractLsb' 8 24 = 0#24
  | .w _ => True

/-- The command of a row and an argument. -/
def Spelling.command (arg : Word) : Spelling → Instr
  | .z i => i
  | .b k => k (arg.extractLsb' 0 8)
  | .w k => k arg

/-- What the decoder does with an argument, by the format of the row. -/
def Spelling.decode (arg : Word) : Spelling → Except Illegal Instr
  | .z i => decodeZ arg i
  | .b k => decodeB arg k
  | .w k => decodeW arg k

/-- The argument the encoder writes for that command (R61). -/
def Spelling.argument (arg : Word) : Spelling → Word
  | .z _ => 0#32
  | .b _ => (arg.extractLsb' 0 8).setWidth 32
  | .w _ => arg

theorem ite_error_eq_ok {p : Prop} [Decidable p] {e : Illegal} {i j : Instr} :
    (if p then Except.ok j else Except.error e) = Except.ok i ↔ p ∧ j = i := by
  split <;> simp_all

/-- A row decodes the arguments its format admits, each to its command. -/
theorem Spelling.decode_eq_ok {sp : Spelling} {arg : Word} {i : Instr} :
    sp.decode arg = .ok i ↔ sp.Admits arg ∧ sp.command arg = i := by
  cases sp with
  | z j => exact ite_error_eq_ok
  | b k => exact ite_error_eq_ok
  | w k => simp [Spelling.decode, Spelling.Admits, Spelling.command, decodeW]

/-- An argument the format admits has no bit the encoder would drop. -/
theorem Spelling.argument_of_admits {sp : Spelling} {arg : Word} (h : sp.Admits arg) : sp.argument arg = arg := by
  cases sp with
  | z i => exact h.symm
  | b k => exact byte_of_reservedBits h
  | w k => rfl

theorem encode_command {sp : Spelling} (h : sp ∈ spellings) (arg : Word) :
    encode (sp.command arg) = sp.opcode ++ sp.argument arg := by
  fin_cases h <;> rfl

theorem nodup_opcodes : (spellings.map Spelling.opcode).Nodup := by decide

/-- No two rows share an opcode. -/
theorem eq_of_opcode_eq {sp sp' : Spelling} (h : sp ∈ spellings) (h' : sp' ∈ spellings)
    (e : sp.opcode = sp'.opcode) : sp = sp' :=
  List.inj_on_of_nodup_map nodup_opcodes h h' e

/-! ## What the decoder accepts -/

theorem decodeFields_opcode {sp : Spelling} (h : sp ∈ spellings) (arg : Word) :
    decodeFields sp.opcode arg = sp.decode arg := by
  fin_cases h <;> rfl

theorem decodeFields_of_not_mem {op : Byte} (h : op ∉ spellings.map Spelling.opcode) (arg : Word) :
    decodeFields op arg = .error .reservedOpcode := by
  unfold decodeFields
  split
  case h_22 => rfl
  all_goals
    next e =>
    rw [← BitVec.setWidth_eq op, ← BitVec.ofNat_toNat, e] at h
    exact absurd (by decide) h

/-- The decoder reads a word by the one row of its opcode, or finds no row. -/
theorem decode_eq_ok {cw : CmdWord} {i : Instr} : decode cw = .ok i ↔
    ∃ sp ∈ spellings, sp.opcode = opField cw ∧ sp.Admits (argField cw) ∧ sp.command (argField cw) = i := by
  constructor
  · intro h
    by_cases hop : opField cw ∈ spellings.map Spelling.opcode
    · obtain ⟨sp, hsp, e⟩ := List.mem_map.mp hop
      rw [decode, ← e, decodeFields_opcode hsp] at h
      exact ⟨sp, hsp, e, Spelling.decode_eq_ok.mp h⟩
    · rw [decode, decodeFields_of_not_mem hop] at h
      cases h
  · rintro ⟨sp, hsp, e, h⟩
    rw [decode, ← e, decodeFields_opcode hsp]
    exact Spelling.decode_eq_ok.mpr h

/-- The legal words are those whose opcode has a row that admits their argument. -/
theorem exists_decode_iff {cw : CmdWord} : (∃ i, decode cw = .ok i) ↔
    ∃ sp ∈ spellings, sp.opcode = opField cw ∧ sp.Admits (argField cw) := by
  simp only [decode_eq_ok]
  exact ⟨fun ⟨_, sp, hsp, e, ha, _⟩ => ⟨sp, hsp, e, ha⟩, fun ⟨sp, hsp, e, ha⟩ => ⟨_, sp, hsp, e, ha, rfl⟩⟩

/-! ## Decoding and encoding are inverse -/

theorem decodeB_setWidth (b : Byte) (k : Byte → Instr) : decodeB (b.setWidth 32) k = .ok (k b) := by
  simp [decodeB]

/-- Settles O4, by the format of the command. -/
theorem decodeOfEncode : Obligations.DecodeOfEncode := by
  intro i
  rw [decode, encode, opField_word, argField_word]
  cases i with
  | crcUpd b | bufPush b | ftrEncb b => exact decodeB_setWidth b _
  | sysNop | sysRst | sysStat | crcInit | crcGet | bufClr | bufLen | ftrParse | ftrRdorig | ftrRdcomp | ftrRdcsum
  | ftrRdkind | ftrWrorig | ftrWrcomp | ftrWrcsum | ftrWrkind | valRun | payRd => rfl

/-- Settles O5: the argument is one the row of the command admits, so encoding writes the whole word back. -/
theorem encodeOfDecode : Obligations.EncodeOfDecode := by
  intro cw i h
  obtain ⟨sp, hsp, e, ha, rfl⟩ := decode_eq_ok.mp h
  rw [encode_command hsp, Spelling.argument_of_admits ha, e, word_of_fields]

/-- Settles O9, by evaluation. -/
theorem workedEncodings : Obligations.WorkedEncodings :=
  ⟨rfl, rfl, rfl, rfl, rfl, rfl, rfl, rfl⟩

/-! ## Words presented -/

theorem runWord_of_decode {cw : CmdWord} {i : Instr} (h : decode cw = .ok i) (s : State) : runWord cw s = exec i s := by
  rw [runWord, h]

theorem runsAs_of_decode {cw : CmdWord} {i : Instr} (h : decode cw = .ok i) : RunsAs cw i :=
  fun _ _ hin => (step_of_input_command hin).trans (runWord_of_decode h _)

theorem answeredIllegal_of_not_decode {cw : CmdWord} (h : ¬ ∃ i, decode cw = .ok i) : AnsweredIllegal cw := by
  intro s rest hin
  rw [step_of_input_command hin, runWord]
  split
  · next i e => exact absurd ⟨i, e⟩ h
  · rfl

/-- Settles O1: a word that decodes runs as its command. -/
theorem stepRunsDecodedCommand : Obligations.StepRunsDecodedCommand :=
  fun _ _ _ _ hin h => runsAs_of_decode h _ _ hin

theorem Code.value_mem_codeValues (c : Code) : c.value ∈ codeValues := by
  cases c <;> decide

/-- Settles O2: the step ends, and whatever command or refusal it was adds one response. -/
theorem everyWordGetsOneResponse : Obligations.EveryWordGetsOneResponse := by
  intro s cw rest hs hin
  obtain ⟨t, ht⟩ := step_isNext hs.len
  have heff := commandEffect_of_runWord ((step_of_input_command hin).symm.trans ht)
  obtain ⟨c, d, hr⟩ := heff.responses
  exact ⟨t, _, ht, heff.input, hr, c.value_mem_codeValues⟩

/-! ## The masks of the opcode table -/

/-- The mask of a row's format (R53 to R55). -/
def Spelling.mask : Spelling → CmdWord
  | .z _ => maskZ
  | .b _ => maskB
  | .w _ => maskW

/-- The mask and match of a row (R56). -/
def Spelling.row (sp : Spelling) : CmdWord × CmdWord := (sp.mask, sp.opcode ++ 0#32)

/-- The opcode table lists the rows of the mnemonics, in the same order. -/
theorem tableRows_eq : tableRows = spellings.map Spelling.row := rfl

theorem word_inj {op op' : Byte} {arg arg' : Word} :
    ((op ++ arg : CmdWord) = op' ++ arg') ↔ op = op' ∧ arg = arg' := by
  constructor
  · intro h
    exact ⟨by simpa using congrArg opField h, by simpa using congrArg argField h⟩
  · rintro ⟨rfl, rfl⟩
    rfl

/-- The mask of format B leaves the opcode alone where the reserved bits are zero, and only there (R54). -/
theorem and_maskB_iff {op op' : Byte} {arg : Word} :
    ((op ++ arg : CmdWord) &&& maskB = op' ++ 0#32) ↔ op = op' ∧ arg.extractLsb' 8 24 = 0#24 := by
  constructor
  · intro h
    rw [show maskB = BitVec.allOnes 8 ++ 0xFFFFFF00#32 from rfl, BitVec.and_append, word_inj, BitVec.and_allOnes] at h
    obtain ⟨hop, harg⟩ := h
    have hbits := congrArg (BitVec.extractLsb' 8 24) harg
    rw [BitVec.extractLsb'_and] at hbits
    exact ⟨hop, BitVec.and_allOnes.symm.trans hbits⟩
  · rintro ⟨rfl, h⟩
    rw [← byte_of_reservedBits h]
    exact word_and_maskB _ _

theorem and_mask_iff {sp : Spelling} {op op' : Byte} {arg : Word} :
    ((op ++ arg : CmdWord) &&& sp.mask = op' ++ 0#32) ↔ op = op' ∧ sp.Admits arg := by
  cases sp with
  | z i => rw [Spelling.mask, word_and_maskZ, word_inj]; rfl
  | b k => exact and_maskB_iff
  | w k => rw [Spelling.mask, word_and_maskW, word_inj]; simp [Spelling.Admits]

/-- A word selects a row by its mask where its opcode is the row's and the format admits its argument. -/
theorem selectsRow_iff {cw : CmdWord} {sp : Spelling} :
    selectsRow cw sp.row = true ↔ sp.opcode = opField cw ∧ sp.Admits (argField cw) := by
  rw [eq_comm (a := sp.opcode), ← and_mask_iff, word_of_fields]
  exact beq_iff_eq

theorem legalWord_iff {cw : CmdWord} : legalWord cw = true ↔ ∃ i, decode cw = .ok i := by
  simp only [exists_decode_iff, legalWord, tableRows_eq, List.any_map, List.any_eq_true, Function.comp_apply,
    selectsRow_iff]

/-- Whatever row of the table a word selects, the row's opcode is the word's. -/
theorem opcode_of_selectsRow {cw : CmdWord} {k : Nat} {r : CmdWord × CmdWord} (hr : tableRows[k]? = some r)
    (h : selectsRow cw r = true) : (spellings.map Spelling.opcode)[k]? = some (opField cw) := by
  rw [tableRows_eq, List.getElem?_map, Option.map_eq_some_iff] at hr
  obtain ⟨sp, hsp, rfl⟩ := hr
  rw [List.getElem?_map, hsp, Option.map_some, (selectsRow_iff.mp h).1]

/-- Settles O6: mask and match test what the decoder tests, and no opcode has two rows. -/
theorem decoderAgreesWithTable : Obligations.DecoderAgreesWithTable := by
  refine ⟨fun cw => legalWord_iff, fun cw m n r q hr hq hcr hcq => ?_⟩
  have hm := opcode_of_selectsRow hr hcr
  have hn := opcode_of_selectsRow hq hcq
  obtain ⟨hlt, -⟩ := List.getElem?_eq_some_iff.mp hm
  exact (List.getElem?_inj hlt nodup_opcodes).mp (hm.trans hn.symm)

/-! ## The illegal words -/

/-- The opcodes R58 reserves. -/
abbrev ReservedOpcode (op : Nat) : Prop :=
  op ∈ List.range' 0x03 0x0D ∨ op ∈ List.range' 0x13 0x0D ∨ op ∈ List.range' 0x23 0x0D ∨
    op = 0x32 ∨ op = 0x33 ∨ op ∈ List.range' 0x3C 4 ∨ op ∈ List.range' 0x42 0xBE

/-- The opcodes of format Z (R53). -/
def opcodesZ : List Nat := [0x00, 0x01, 0x02, 0x10, 0x12, 0x20, 0x22, 0x30, 0x34, 0x35, 0x36, 0x37, 0x40]

/-- The opcodes of format B (R54). -/
def opcodesB : List Nat := [0x11, 0x21, 0x31]

/-- The three ways R58 gives for a word to be illegal. -/
def IllegalFields (op : Nat) (arg : Word) : Prop :=
  ReservedOpcode op ∨ (op ∈ opcodesZ ∧ arg ≠ 0#32) ∨ (op ∈ opcodesB ∧ arg.extractLsb' 8 24 ≠ 0#24)

theorem opcodes_eq : spellings.map Spelling.opcode =
    [0x00#8, 0x01#8, 0x02#8, 0x10#8, 0x11#8, 0x12#8, 0x20#8, 0x21#8, 0x22#8, 0x30#8, 0x31#8, 0x34#8, 0x35#8, 0x36#8,
      0x37#8, 0x38#8, 0x39#8, 0x3A#8, 0x3B#8, 0x40#8, 0x41#8] := rfl

theorem reservedOpcode_of_not_mem {op : Byte} (h : op ∉ spellings.map Spelling.opcode) : ReservedOpcode op.toNat := by
  simp only [opcodes_eq, List.mem_cons, List.not_mem_nil, or_false, not_or, ← BitVec.toNat_inj, BitVec.reduceToNat] at h
  have hlt := op.isLt
  simp only [ReservedOpcode, List.mem_range'_1]
  omega

/-- No row has a reserved opcode, and R58 gives each row's opcode the format its mask has. -/
theorem opcode_format : ∀ sp ∈ spellings, ¬ ReservedOpcode sp.opcode.toNat ∧
    (sp.opcode.toNat ∈ opcodesZ ↔ sp.mask = maskZ) ∧ (sp.opcode.toNat ∈ opcodesB ↔ sp.mask = maskB) := by
  decide

theorem illegalFields_opcode {sp : Spelling} (h : sp ∈ spellings) (arg : Word) :
    IllegalFields sp.opcode.toNat arg ↔ ¬ sp.Admits arg := by
  obtain ⟨hres, hz, hb⟩ := opcode_format sp h
  rw [IllegalFields, hz, hb]
  cases sp with
  | z i => simp [hres, Spelling.mask, Spelling.Admits, maskZ, maskB]
  | b k => simp [hres, Spelling.mask, Spelling.Admits, maskZ, maskB]
  | w k => simp [hres, Spelling.mask, Spelling.Admits, maskZ, maskB, maskW]

/-- R58 lists the words whose opcode has no row, or whose row does not admit their argument. -/
theorem illegalFields_iff {cw : CmdWord} :
    IllegalFields (opField cw).toNat (argField cw) ↔ ¬ ∃ i, decode cw = .ok i := by
  rw [exists_decode_iff]
  by_cases hop : opField cw ∈ spellings.map Spelling.opcode
  · obtain ⟨sp, hsp, e⟩ := List.mem_map.mp hop
    rw [← e, illegalFields_opcode hsp, not_iff_not]
    refine ⟨fun h => ⟨sp, hsp, rfl, h⟩, ?_⟩
    rintro ⟨sp', hsp', e', h⟩
    rwa [← eq_of_opcode_eq hsp' hsp e']
  · refine iff_of_true (.inl (reservedOpcode_of_not_mem hop)) ?_
    rintro ⟨sp, hsp, e, -⟩
    exact hop (List.mem_map.mpr ⟨sp, hsp, e⟩)

/-- Settles O7: the three clauses of R58 are exactly what the decoder refuses. -/
theorem illegalWords : Obligations.IllegalWords := by
  intro cw
  exact ⟨fun h => answeredIllegal_of_not_decode (illegalFields_iff.mp h), fun h =>
    (not_imp_comm.mp illegalFields_iff.mpr h).imp fun _ => runsAs_of_decode⟩

/-! ## How many words are legal -/

/-- How many arguments the format of a row admits. -/
def Spelling.argumentCount : Spelling → Nat
  | .z _ => 1
  | .b _ => 256
  | .w _ => 2 ^ 32

/-- Format B admits one argument for each byte (R54). -/
def byteArguments : Byte ≃ {arg : Word // arg.extractLsb' 8 24 = 0#24} where
  toFun b := ⟨b.setWidth 32, reservedBits_byte b⟩
  invFun arg := arg.1.extractLsb' 0 8
  left_inv := operandBits_byte
  right_inv arg := Subtype.ext (byte_of_reservedBits arg.2)

theorem card_bitVec (n : Nat) : Nat.card (BitVec n) = 2 ^ n :=
  (Nat.card_congr BitVec.equivFin.toEquiv).trans (Nat.card_fin _)

theorem card_admits (sp : Spelling) : Nat.card {arg : Word // sp.Admits arg} = sp.argumentCount := by
  cases sp with
  | z i => exact Nat.card_unique (α := {arg : Word // arg = 0#32})
  | b k => exact (Nat.card_congr byteArguments).symm.trans (card_bitVec 8)
  | w k => exact (Nat.card_congr (Equiv.subtypeUnivEquiv fun _ => trivial)).trans (card_bitVec 32)

theorem isSome_decode_iff {cw : CmdWord} : (decode cw).toOption.isSome = true ↔ ∃ i, decode cw = .ok i := by
  cases decode cw <;> simp [Except.toOption]

/-- A row, by its place in R56, and an argument its format admits. -/
abbrev RowArgument : Type := Σ k : Fin spellings.length, {arg : Word // (spellings.get k).Admits arg}

/-- The word of a row and an argument. -/
def RowArgument.word (p : RowArgument) : CmdWord := (spellings.get p.1).opcode ++ p.2.1

theorem RowArgument.word_injective : Function.Injective RowArgument.word := by
  rintro ⟨k, arg, ha⟩ ⟨k', arg', ha'⟩ h
  obtain ⟨hop, rfl⟩ := word_inj.mp h
  have hrow := eq_of_opcode_eq (List.get_mem spellings k) (List.get_mem spellings k') hop
  obtain rfl : k = k' := (List.Nodup.get_inj_iff nodup_opcodes.of_map).mp hrow
  rfl

/-- The legal words are those of the rows and the arguments they admit. -/
theorem RowArgument.range_word :
    Set.range RowArgument.word = {cw : CmdWord | (decode cw).toOption.isSome = true} := by
  ext cw
  rw [Set.mem_ofPred_eq, isSome_decode_iff, exists_decode_iff]
  constructor
  · rintro ⟨⟨k, arg, ha⟩, rfl⟩
    exact ⟨_, List.get_mem spellings k, (opField_word _ _).symm, by rwa [RowArgument.word, argField_word]⟩
  · rintro ⟨sp, hsp, e, ha⟩
    obtain ⟨k, rfl⟩ := List.mem_iff_get.mp hsp
    exact ⟨⟨k, _, ha⟩, by rw [RowArgument.word, e, word_of_fields]⟩

theorem sum_argumentCount : ∑ k, (spellings.get k).argumentCount = 13 + 768 + 5 * 2 ^ 32 := rfl

/-- Settles O8: 13 rows have one word, 3 have 256 and 5 have `2 ^ 32`, and no word belongs to two. -/
theorem legalWordCount : Obligations.LegalWordCount := by
  have hcount := calc
    Nat.card {cw : CmdWord | (decode cw).toOption.isSome = true}
      = Nat.card RowArgument := by rw [← RowArgument.range_word, Nat.card_range_of_injective RowArgument.word_injective]
    _ = ∑ k, Nat.card {arg : Word // (spellings.get k).Admits arg} := Nat.card_sigma
    _ = ∑ k, (spellings.get k).argumentCount := Finset.sum_congr rfl fun k _ => card_admits _
    _ = 13 + 768 + 5 * 2 ^ 32 := sum_argumentCount
  exact hcount

/-! ## Hexadecimal digits -/

theorem hexDigit_hexChar : ∀ n < 16, hexDigit (hexChar n) = some n := by decide

theorem digitsValue_append (base : Nat) (digit : Char → Option Nat) : ∀ (acc : Nat) (cs ds : List Char),
    digitsValue base digit acc (cs ++ ds) =
      (digitsValue base digit acc cs).bind fun acc' => digitsValue base digit acc' ds
  | acc, [], ds => rfl
  | acc, c :: cs, ds => by
    simp only [List.cons_append, digitsValue]
    split
    · rfl
    · exact digitsValue_append base digit _ cs ds

theorem digitsValue_hexDigits : ∀ (k v acc : Nat), v < 16 ^ k →
    digitsValue 16 hexDigit acc (hexDigits k v) = some (acc * 16 ^ k + v)
  | 0, v, acc, h => by
    obtain rfl : v = 0 := by simpa using h
    simp [hexDigits, digitsValue]
  | k + 1, v, acc, h => by
    have hv : v / 16 < 16 ^ k := by rw [pow_succ] at h; omega
    rw [hexDigits, digitsValue_append, digitsValue_hexDigits k _ acc hv]
    simp only [Option.bind_some, digitsValue, hexDigit_hexChar _ (Nat.mod_lt v (by decide : 0 < 16)), Option.some_inj]
    rw [pow_succ]
    ring_nf
    omega

theorem hexDigits_ne_nil {k : Nat} (hk : 0 < k) (v : Nat) : hexDigits k v ≠ [] := by
  cases k with
  | zero => omega
  | succ k => simp [hexDigits]

theorem not_mem_hexDigits {c : Char} (hc : ∀ n < 16, c ≠ hexChar n) : ∀ k v, c ∉ hexDigits k v
  | 0, _ => List.not_mem_nil
  | k + 1, v => by
    rw [hexDigits, List.mem_append, List.mem_singleton]
    exact not_or.mpr ⟨not_mem_hexDigits hc k _, hc _ (Nat.mod_lt v (by decide))⟩

/-- An operand as the model writes it: `0x` and `k` digits. -/
def hexLiteral (k v : Nat) : List Char := '0' :: 'x' :: hexDigits k v

theorem literal_hexLiteral {k v : Nat} (hk : 0 < k) (h : v < 16 ^ k) : literal (hexLiteral k v) = some v := by
  have hval := digitsValue_hexDigits k v 0 h
  obtain ⟨c, cs, e⟩ := List.exists_cons_of_ne_nil (hexDigits_ne_nil hk v)
  rw [e, Nat.zero_mul, Nat.zero_add] at hval
  rw [hexLiteral, e]
  exact hval

theorem byteLiteral_hexLiteral (b : Byte) : byteLiteral (hexLiteral 2 b.toNat) = some b := by
  have hb := b.isLt
  rw [byteLiteral, literal_hexLiteral (by decide) hb]
  simp [show b.toNat ≤ 255 by omega]

theorem wordLiteral_hexLiteral (v : Word) : wordLiteral (hexLiteral 8 v.toNat) = some v := by
  have hv := v.isLt
  rw [wordLiteral, literal_hexLiteral (by decide) hv]
  simp [show v.toNat ≤ 4294967295 by omega]

/-! ## Lines of one and of two words -/

/-- A word of a line: not empty, with no space and no start of a comment. -/
structure PlainWord (w : List Char) : Prop where
  ne_nil : w ≠ []
  no_space : ' ' ∉ w
  no_comment : ';' ∉ w

theorem PlainWord.lineBody_append {w : List Char} (h : PlainWord w) {pre : List Char} (hpre : ';' ∉ pre) :
    lineBody (pre ++ w) = pre ++ w := by
  have htake : (pre ++ w).takeWhile (· != ';') = pre ++ w := by
    rw [List.takeWhile_eq_self_iff]
    intro c hc
    rw [bne_iff_ne]
    rintro rfl
    exact (List.mem_append.mp hc).elim hpre h.no_comment
  rw [lineBody, htake]
  refine List.rdropWhile_eq_self_iff.mpr fun hne => ?_
  rw [List.getLast_append_of_ne_nil hne h.ne_nil, beq_iff_eq]
  intro e
  exact h.no_space (e ▸ List.getLast_mem h.ne_nil)

theorem splitWords_eq_singleton : ∀ {w : List Char}, ' ' ∉ w → splitWords w = [w]
  | [], _ => rfl
  | c :: w, h => by
    obtain ⟨hc, hw⟩ := not_or.mp (mt List.mem_cons.mpr h)
    rw [splitWords, if_neg (Ne.symm hc), splitWords_eq_singleton hw]

theorem splitWords_append : ∀ {w : List Char} (cs : List Char), ' ' ∉ w →
    splitWords (w ++ ' ' :: cs) = w :: splitWords cs
  | [], cs, _ => rfl
  | c :: w, cs, h => by
    obtain ⟨hc, hw⟩ := not_or.mp (mt List.mem_cons.mpr h)
    rw [List.cons_append, splitWords, if_neg (Ne.symm hc), splitWords_append cs hw]

theorem assembleLine_name {name : List Char} {i : Instr} (hname : PlainWord name)
    (h : commandOfWords name [] = some i) : assembleLine name = some [i] := by
  have hbody := hname.lineBody_append (pre := []) (by simp)
  rw [List.nil_append] at hbody
  simp only [assembleLine, hbody, splitWords_eq_singleton hname.no_space, h]

theorem assembleLine_operand {name w : List Char} {i : Instr} (hname : PlainWord name) (hw : PlainWord w)
    (h : commandOfWords name [w] = some i) : assembleLine (name ++ ' ' :: w) = some [i] := by
  have hbody := hw.lineBody_append (pre := name ++ [' ']) (by simp [hname.no_comment])
  rw [List.append_assoc, List.singleton_append] at hbody
  simp only [assembleLine, hbody, splitWords_append w hname.no_space, splitWords_eq_singleton hw.no_space, h]

/-! ## Commands as lines -/

theorem plainWord_hexLiteral (k v : Nat) : PlainWord (hexLiteral k v) where
  ne_nil := List.cons_ne_nil _ _
  no_space := by simp [hexLiteral, not_mem_hexDigits (c := ' ') (by decide)]
  no_comment := by simp [hexLiteral, not_mem_hexDigits (c := ';') (by decide)]

theorem mnemonics_plain : ∀ row ∈ mnemonicTable, row.1 ≠ [] ∧ ' ' ∉ row.1 ∧ ';' ∉ row.1 := by decide

theorem plainWord_of_lookup {name : List Char} {sp : Spelling} (h : mnemonicTable.lookup name = some sp) :
    PlainWord name := by
  obtain ⟨before, after, e, -⟩ := List.lookup_eq_some_iff.mp h
  obtain ⟨hne, hspace, hcomment⟩ := mnemonics_plain (name, sp) (by simp [e])
  exact ⟨hne, hspace, hcomment⟩

theorem assembleLine_mnemonic {name : List Char} {i : Instr} (h : mnemonicTable.lookup name = some (.z i)) :
    assembleLine name = some [i] :=
  assembleLine_name (plainWord_of_lookup h) (by simp only [commandOfWords, h])

theorem assembleLine_byte {name : List Char} {k : Byte → Instr} {b : Byte}
    (h : mnemonicTable.lookup name = some (.b k)) : assembleLine (name ++ ' ' :: hexLiteral 2 b.toNat) = some [k b] :=
  assembleLine_operand (plainWord_of_lookup h) (plainWord_hexLiteral _ _)
    (by simp only [commandOfWords, h, byteLiteral_hexLiteral, Option.map_some])

theorem assembleLine_word {name : List Char} {k : Word → Instr} {v : Word}
    (h : mnemonicTable.lookup name = some (.w k)) : assembleLine (name ++ ' ' :: hexLiteral 8 v.toNat) = some [k v] :=
  assembleLine_operand (plainWord_of_lookup h) (plainWord_hexLiteral _ _)
    (by simp only [commandOfWords, h, wordLiteral_hexLiteral, Option.map_some])

theorem assembleLine_textOf (i : Instr) : assembleLine (textOf i) = some [i] := by
  cases i with
  | crcUpd b | bufPush b | ftrEncb b => exact assembleLine_byte rfl
  | ftrWrorig v | ftrWrcomp v | ftrWrcsum v | ftrWrkind v | payRd v => exact assembleLine_word rfl
  | sysNop | sysRst | sysStat | crcInit | crcGet | bufClr | bufLen | ftrParse | ftrRdorig | ftrRdcomp | ftrRdcsum
  | ftrRdkind | valRun => exact assembleLine_mnemonic rfl

/-- Settles O10, by the format of the command; the word is the encoder's by definition. -/
theorem textRoundTrip : Obligations.TextRoundTrip := by
  intro i
  rw [wordsOfLine, assembleLine_textOf]
  exact ⟨rfl, rfl⟩

/-! ## The pseudo-command `FTR.ENC` -/

/-- By induction on the bytes `xs` of the footer still to be answered, after the bytes `pre`. -/
theorem performAll_ftrEncb : ∀ (xs pre : List Byte) (s : State), encodeFooter s.f = pre ++ xs →
    performAll ((List.range' pre.length xs.length).map fun k => .ftrEncb (BitVec.ofNat 8 k)) s =
      .next { s with responses := s.responses ++ xs.map fun x => ⟨0x00#8, x.setWidth 32⟩ }
  | [], _, s, _ => by simp [performAll]
  | x :: xs, pre, s, h => by
    have hlen : pre.length + (xs.length + 1) = 20 := by
      rw [← length_encodeFooter s.f, h, List.length_append, List.length_cons]
    have hget : (encodeFooter s.f)[(BitVec.ofNat 8 pre.length).toNat]? = some x := by
      rw [h, BitVec.toNat_ofNat, Nat.mod_eq_of_lt (by omega)]
      simp
    have hexec : exec (.ftrEncb (BitVec.ofNat 8 pre.length)) s = .next (s.answer .ok (zext32 x)) :=
      execFtrEncb_of_getElem? hget
    have hrest := performAll_ftrEncb xs (pre ++ [x]) (s.answer .ok (zext32 x)) (by simpa using h)
    rw [List.length_append, List.length_singleton] at hrest
    rw [List.length_cons, List.range'_succ, List.map_cons, performAll_cons_of_next hexec, hrest]
    simp [State.answer, Code.value, zext32]

/-- Settles O34: from index 0 on, the footer's bytes are answered one after the other. -/
theorem ftrEncAnswersTheFooter : Obligations.FtrEncAnswersTheFooter :=
  fun s => performAll_ftrEncb (encodeFooter s.f) [] s rfl

end Sys2Proof.Machine

/-! PROOFS. Family `40_sys.md`: how the words of a format-Z command are answered, then the three system commands. -/

namespace Sys2Proof.Machine

/-! ## Words of format Z -/

theorem decode_opcode {sp : Spelling} (h : sp ∈ spellings) (arg : Word) :
    decode (sp.opcode ++ arg) = sp.decode arg := by
  rw [decode, opField_word, argField_word, decodeFields_opcode h]

/-- A row of format Z performs its command at argument zero and refuses every other argument (R53). -/
theorem formatZ_of_mem {op : Byte} {i : Instr} (hop : opcodeOf i = op) (h : .z i ∈ spellings) : FormatZ op i := by
  subst hop
  have hdecode (arg : Word) : decode (opcodeOf i ++ arg) = decodeZ arg i := decode_opcode h arg
  refine ⟨runsAs_of_decode ((hdecode _).trans (if_pos rfl)), fun arg harg => answeredIllegal_of_not_decode ?_⟩
  rintro ⟨j, hj⟩
  rw [hdecode, decodeZ, ite_error_eq_ok] at hj
  exact harg hj.1

/-! ## The system commands -/

/-- In the reset state there is nothing left to reset. -/
theorem State.AtReset.resetRegisters_eq {s : State} (h : s.AtReset) : s.resetRegisters = s := by
  obtain ⟨hf, hacc, hlen, hv⟩ := h
  cases s
  cases hf
  cases hacc
  cases hlen
  cases hv
  rfl

/-- The gate is closed in the reset state (R17, R22). -/
theorem State.AtReset.gate {s : State} (h : s.AtReset) : s.gate = false := by
  rw [State.gate, h.verdict]
  rfl

/-- The status word is one of nine numbers (R18). -/
theorem State.Wf.toNat_statusWord_mem {s : State} (h : s.Wf) : s.statusWord.toNat ∈ verdictValues.map BitVec.toNat := by
  rw [State.statusWord, BitVec.toNat_setWidth_of_le (by decide)]
  exact List.mem_map_of_mem h.verdict

/-- A verdict answered with an error code has that code as its value. -/
theorem Verdict.value_eq_code_of_ne {v : Verdict} (h : v.code.value ≠ 0x00#8) : v.value = v.code.value := by
  refine v.value_eq_code.resolve_right ?_
  rintro (rfl | rfl)
  · exact h rfl
  · exact h rfl

/-- A failing `VAL.RUN` leaves its response code in the verdict register (R126). -/
theorem verdict_eq_code_of_execValRun {s t : State} {r : Response} (h : execValRun s = .next t)
    (hr : t.responses = s.responses ++ [r]) (hfail : r.code ≠ 0x00#8) : t.verdict = r.code := by
  obtain ⟨-, rfl⟩ := execValRun_next_iff.mp h
  obtain rfl : ⟨s.judgement.1.code.value, s.judgement.2⟩ = r := List.singleton_inj.mp (List.append_cancel_left hr)
  exact Verdict.value_eq_code_of_ne hfail

/-- Settles O15: the status word is the zero-extended verdict, and a failing `VAL.RUN` leaves its code as the verdict. -/
theorem sysStatRule : Obligations.SysStatRule := by
  refine ⟨formatZ_of_mem rfl (by simp [spellings, mnemonicTable]), fun s => ?_, fun s t r h hr hfail => ?_⟩
  · exact ⟨s.statusWord, operandBits_byte _, reservedBits_byte _, fun hs => hs.toNat_statusWord_mem, rfl⟩
  · rw [← verdict_eq_code_of_execValRun h hr hfail]
    rfl

/-- Settles O13, by the format of its words and the definition of the command. -/
theorem sysNopRule : Obligations.SysNopRule :=
  ⟨formatZ_of_mem rfl (by simp [spellings, mnemonicTable]), fun _ => rfl⟩

/-- Settles O14: command and reset event both reset the registers, which leaves a reset state as it is. -/
theorem sysRstRule : Obligations.SysRstRule := by
  refine ⟨formatZ_of_mem rfl (by simp [spellings, mnemonicTable]), fun s => rfl, fun s rest hin => ?_, fun s t h => ?_,
    fun s hs => ?_⟩
  · exact ⟨_, step_of_input_reset hin, rfl⟩
  · cases h
    exact State.AtReset.gate ⟨rfl, rfl, rfl, rfl⟩
  · exact congrArg (respond · .ok 0#32) hs.resetRegisters_eq

end Sys2Proof.Machine

/-! PROOFS. Family `41_crc.md`: the loop of R81 is linear over xor and can be undone, and from that the table form, the
sensitivity to one byte and the residue; then the CRC commands, and what `VAL.RUN` makes of a changed and of a built
container. -/

namespace Sys2Proof.Machine

/-! ## The loop of R81 -/

/-- What is added to both words cancels. -/
theorem xor_xor_xor_cancel (x y z : Word) : (x ^^^ z) ^^^ (y ^^^ z) = x ^^^ y := by
  rw [BitVec.xor_comm y z, BitVec.xor_assoc, ← BitVec.xor_assoc z, BitVec.xor_self, BitVec.zero_xor]

theorem crcShift_of_bit_clear {a : Word} (h : a.getLsbD 0 = false) : crcShift a = a >>> 1 := by
  rw [crcShift, h]
  rfl

theorem crcShift_of_bit_set {a : Word} (h : a.getLsbD 0 = true) : crcShift a = (a >>> 1) ^^^ crcPoly := if_pos h

/-- One iteration is linear over xor: the generator is added once for each bit 0 that is set. -/
theorem crcShift_xor (x y : Word) : crcShift (x ^^^ y) = crcShift x ^^^ crcShift y := by
  have hxy := BitVec.getLsbD_xor (x := x) (y := y) (i := 0)
  cases hx : x.getLsbD 0 <;> cases hy : y.getLsbD 0 <;> rw [hx, hy] at hxy
  · rw [crcShift_of_bit_clear hx, crcShift_of_bit_clear hy, crcShift_of_bit_clear hxy, BitVec.ushiftRight_xor_distrib]
  · rw [crcShift_of_bit_clear hx, crcShift_of_bit_set hy, crcShift_of_bit_set hxy, BitVec.ushiftRight_xor_distrib,
      BitVec.xor_assoc]
  · rw [crcShift_of_bit_set hx, crcShift_of_bit_clear hy, crcShift_of_bit_set hxy, BitVec.ushiftRight_xor_distrib]
    ac_rfl
  · rw [crcShift_of_bit_set hx, crcShift_of_bit_set hy, crcShift_of_bit_clear hxy, BitVec.ushiftRight_xor_distrib,
      xor_xor_xor_cancel]

theorem crcShifts_eq_iterate (n : Nat) (a : Word) : crcShifts n a = crcShift^[n] a := by
  induction n generalizing a with
  | zero => rfl
  | succ n ih => exact ih (crcShift a)

theorem crcShifts_add (m n : Nat) (a : Word) : crcShifts (m + n) a = crcShifts n (crcShifts m a) := by
  simp only [crcShifts_eq_iterate, Nat.add_comm m n, Function.iterate_add_apply]

theorem crcShifts_xor (n : Nat) (x y : Word) : crcShifts n (x ^^^ y) = crcShifts n x ^^^ crcShifts n y := by
  induction n generalizing x y with
  | zero => rfl
  | succ n ih => simp only [crcShifts, crcShift_xor, ih]

/-- Iterations that find bit 0 clear are a plain shift. -/
theorem crcShifts_of_low_clear {n : Nat} {a : Word} (h : ∀ i < n, a.getLsbD i = false) : crcShifts n a = a >>> n := by
  induction n generalizing a with
  | zero => exact (BitVec.ushiftRight_zero a).symm
  | succ n ih =>
    have hnext : ∀ i < n, (a >>> 1).getLsbD i = false := fun i hi => by
      rw [BitVec.getLsbD_ushiftRight]
      exact h _ (by omega)
    rw [crcShifts, crcShift_of_bit_clear (h 0 (Nat.succ_pos n)), ih hnext, ← BitVec.shiftRight_add, Nat.add_comm]

/-! ## One iteration undone -/

/-- The argument of an iteration, from its result (R82). -/
def crcUnshift (r : Word) : Word :=
  if r.getLsbD 31 = true then ((r ^^^ crcPoly) <<< 1) ||| 1#32 else r <<< 1

/-- The generator has bit 31 set, which a shifted word has not. -/
theorem crcShift_bit31 (a : Word) : (crcShift a).getLsbD 31 = a.getLsbD 0 := by
  cases h : a.getLsbD 0 with
  | false => simp [crcShift_of_bit_clear h]
  | true => simp [crcShift_of_bit_set h, crcPoly]

theorem crcUnshift_crcShift (a : Word) : crcUnshift (crcShift a) = a := by
  rw [crcUnshift, crcShift_bit31]
  cases h : a.getLsbD 0 with
  | false =>
    rw [crcShift_of_bit_clear h]
    ext (_ | i) hi <;> simp_all [Nat.add_comm 1]
  | true =>
    rw [crcShift_of_bit_set h]
    ext (_ | i) hi <;> simp_all [Nat.add_comm 1]

theorem crcShifts_injective (n : Nat) : Function.Injective (crcShifts n) := by
  have h : crcShifts n = crcShift^[n] := funext (crcShifts_eq_iterate n)
  exact h ▸ (Function.LeftInverse.injective crcUnshift_crcShift).iterate n

/-! ## One data byte -/

theorem crcStep_zero_byte (a : Word) : crcStep a 0#8 = crcShifts 8 a := congrArg (crcShifts 8) BitVec.xor_zero

/-- Feeding the low byte of `v` leaves the others to be fed: the rest of `v` moves down eight bits. -/
theorem crcShifts_eight_xor (a v : Word) :
    crcShifts 8 (a ^^^ v) = crcStep a (v.extractLsb' 0 8) ^^^ v >>> 8 := by
  have hlow : ∀ i < 8, (v ^^^ (v.extractLsb' 0 8).setWidth 32).getLsbD i = false := fun i hi => by
    simp [hi, show i < 32 by omega]
  have hhigh : (v ^^^ (v.extractLsb' 0 8).setWidth 32) >>> 8 = v >>> 8 := by
    ext i hi
    simp
  rw [← xor_xor_xor_cancel a v ((v.extractLsb' 0 8).setWidth 32), crcShifts_xor, crcShifts_of_low_clear hlow, hhigh]
  rfl

theorem setWidth_ushiftRight_eight (b : Byte) : b.setWidth 32 >>> 8 = 0#32 := by
  ext i hi
  simp

/-- The table form of R81. -/
theorem crcStep_eq_table (a : Word) (b : Byte) :
    crcStep a b = (a >>> 8) ^^^ crcStep 0#32 ((a ^^^ b.setWidth 32).extractLsb' 0 8) := by
  have h := crcShifts_eight_xor 0#32 (a ^^^ b.setWidth 32)
  rw [BitVec.zero_xor, BitVec.ushiftRight_xor_distrib, setWidth_ushiftRight_eight, BitVec.xor_zero] at h
  exact h.trans (BitVec.xor_comm _ _)

/-- Settles O16: the table form splits the word fed into its low byte and the rest. -/
theorem crcStepLoopAndTable : Obligations.CrcStepLoopAndTable :=
  ⟨fun _ _ => crcShifts_eq_iterate 8 _, crcStep_eq_table, by decide, by decide, by decide, by decide⟩

/-! ## Byte sequences -/

theorem crcFeedRaw_eq_foldl (a : Word) (m : List Byte) : crcFeedRaw a m = m.foldl crcStep a := by
  induction m generalizing a with
  | nil => rfl
  | cons b m ih => exact ih (crcStep a b)

theorem crcFeedRaw_append (a : Word) (m n : List Byte) : crcFeedRaw a (m ++ n) = crcFeedRaw (crcFeedRaw a m) n := by
  simp only [crcFeedRaw_eq_foldl, List.foldl_append]

/-- Settles O18: feeding byte by byte is the fold. -/
theorem crcOfSequence : Obligations.CrcOfSequence :=
  ⟨fun m => congrArg (· ^^^ crcOnes) (crcFeedRaw_eq_foldl crcOnes m), rfl⟩

theorem crcStep_injective_left (b : Byte) : Function.Injective (crcStep · b) :=
  fun _ _ h => (BitVec.xor_left_inj _).mp (crcShifts_injective 8 h)

theorem crcStep_injective_right (a : Word) : Function.Injective (crcStep a) := by
  intro b c h
  have hbc : b.setWidth 32 = c.setWidth 32 := (BitVec.xor_right_inj a).mp (crcShifts_injective 8 h)
  rw [← operandBits_byte b, hbc, operandBits_byte]

theorem crcFeedRaw_injective_left (m : List Byte) : Function.Injective (crcFeedRaw · m) := by
  induction m with
  | nil => exact Function.injective_id
  | cons b m ih => exact ih.comp (crcStep_injective_left b)

/-- A change inside one byte changes the checksum (R82): the two accumulators differ after that byte, and every later
byte keeps them apart. -/
theorem crc32_ne_of_byte_ne {b c : Byte} (hbc : b ≠ c) (m n : List Byte) :
    crc32 (m ++ b :: n) ≠ crc32 (m ++ c :: n) := by
  intro h
  have hraw : crcRaw (m ++ b :: n) = crcRaw (m ++ c :: n) := (BitVec.xor_left_inj crcOnes).mp h
  rw [crcRaw, crcRaw, crcFeedRaw_append, crcFeedRaw_append] at hraw
  exact hbc (crcStep_injective_right _ (crcFeedRaw_injective_left n hraw))

/-- Settles O17: one iteration is linear and can be undone, so eight of them are linear and one-to-one. -/
theorem crcLinearInvertibleSensitive : Obligations.CrcLinearInvertibleSensitive := by
  refine ⟨fun a b => (crcStep_zero_byte _).symm, fun x y => ?_, rfl, ?_, ?_,
    fun m n b c hbc => crc32_ne_of_byte_ne hbc m n⟩
  · simp only [crcStep_zero_byte, crcShifts_xor]
  · exact Finite.injective_iff_bijective.mp (crcStep_injective_left 0#8)
  · rintro a r rfl
    exact ⟨crcShift_bit31 a, (crcUnshift_crcShift a).symm⟩

/-- Four bytes are thirty-two iterations on the word they spell. -/
theorem crcFeedRaw_le32 (a v : Word) : crcFeedRaw a (le32 v) = crcShifts 32 (a ^^^ v) := by
  have hbyte (k : Nat) : (v >>> k).extractLsb' 0 8 = v.extractLsb' k 8 := by
    ext i hi
    simp
  have hnone : v >>> 32 = 0#32 := BitVec.ushiftRight_eq_zero (le_refl 32)
  simp only [crcShifts_add 8 24, crcShifts_add 8 16, crcShifts_add 8 8, crcShifts_eight_xor, hbyte,
    ← BitVec.shiftRight_add, hnone, BitVec.xor_zero]
  rfl

/-- The residue (R88): the checksum cancels the accumulator, so the end is that of thirty-two iterations on all ones. -/
theorem crcRaw_append_crc32 (m : List Byte) : crcRaw (m ++ le32 (crc32 m)) = 0xDEBB20E3#32 := by
  have hones : crcRaw m ^^^ crc32 m = crcOnes := by rw [crc32, ← BitVec.xor_assoc, BitVec.xor_self, BitVec.zero_xor]
  have hend : crcShifts 32 crcOnes = 0xDEBB20E3#32 := by decide +kernel
  rw [crcRaw, crcFeedRaw_append, crcFeedRaw_le32, ← crcRaw, hones, hend]

/-- Settles O20: the values by evaluation, and the residue for every message. -/
theorem crcValuesAndResidue : Obligations.CrcValuesAndResidue := by
  refine ⟨rfl, by decide, by decide +kernel, by decide +kernel, by decide, by decide, by decide +kernel,
    by decide +kernel, by decide +kernel, fun m => ⟨crcRaw_append_crc32 m, ?_⟩⟩
  rw [crc32, crcRaw_append_crc32]
  rfl

/-! ## Zero bytes -/

theorem eq_zero_of_ushiftRight_eq {a : Word} (h : a >>> 1 = a) : a = 0#32 := by
  have hnat := congrArg BitVec.toNat h
  rw [BitVec.toNat_ushiftRight, Nat.shiftRight_eq_div_pow] at hnat
  exact BitVec.eq_of_toNat_eq (show a.toNat = 0 by omega)

/-- One iteration keeps no word but zero: the one word that a shift and the generator together keep has bit 0 clear. -/
theorem eq_zero_of_crcShift_eq {a : Word} (h : crcShift a = a) : a = 0#32 := by
  cases ha : a.getLsbD 0 with
  | false => exact eq_zero_of_ushiftRight_eq ((crcShift_of_bit_clear ha).symm.trans h)
  | true =>
    rw [crcShift_of_bit_set ha] at h
    have hkept : (0xB6D0FDC0#32 >>> 1) ^^^ crcPoly = 0xB6D0FDC0#32 := by decide
    have hdiff : (a ^^^ 0xB6D0FDC0#32) >>> 1 = a ^^^ 0xB6D0FDC0#32 := by
      rw [BitVec.ushiftRight_xor_distrib, ← xor_xor_xor_cancel _ _ crcPoly, h, hkept]
    rw [BitVec.xor_eq_zero_iff.mp (eq_zero_of_ushiftRight_eq hdiff)] at ha
    exact absurd ha (by decide)

/-- Twice as many iterations still keep no word but zero: `a` and its image change places, so their sum is kept. -/
theorem eq_zero_of_crcShifts_add_self_eq {n : Nat} (hn : ∀ a, crcShifts n a = a → a = 0#32) {a : Word}
    (h : crcShifts (n + n) a = a) : a = 0#32 := by
  rw [crcShifts_add] at h
  have hsum : crcShifts n (crcShifts n a ^^^ a) = crcShifts n a ^^^ a := by
    rw [crcShifts_xor, h, BitVec.xor_comm]
  exact hn a (BitVec.xor_eq_zero_iff.mp (hn _ hsum))

theorem eq_zero_of_crcStep_zero_eq {a : Word} (h : crcStep a 0#8 = a) : a = 0#32 := by
  have h1 (a : Word) : crcShifts 1 a = a → a = 0#32 := eq_zero_of_crcShift_eq
  have h2 (a : Word) : crcShifts 2 a = a → a = 0#32 := eq_zero_of_crcShifts_add_self_eq h1
  have h4 (a : Word) : crcShifts 4 a = a → a = 0#32 := eq_zero_of_crcShifts_add_self_eq h2
  exact eq_zero_of_crcShifts_add_self_eq h4 ((crcStep_zero_byte a).symm.trans h)

/-! ## The CRC commands -/

/-- A row of format B performs its command at a zero-extended byte and refuses reserved bits that are not zero (R54). -/
theorem formatB_of_mem {op : Byte} {k : Byte → Instr} (hop : opcodeOf (k 0#8) = op) (h : .b k ∈ spellings) :
    FormatB op k := by
  subst hop
  have hdecode (arg : Word) : decode (opcodeOf (k 0#8) ++ arg) = decodeB arg k := decode_opcode h arg
  refine ⟨fun b => runsAs_of_decode ?_, fun arg harg => answeredIllegal_of_not_decode ?_⟩
  · have hbyte : 0#24 ++ b = b.setWidth 32 := (BitVec.setWidth_eq_append (by decide)).symm
    rw [hdecode, hbyte, decodeB_setWidth]
  · rintro ⟨j, hj⟩
    rw [hdecode, decodeB, ite_error_eq_ok] at hj
    exact harg hj.1

/-- Settles O21: the format of its word and the definition of the command. -/
theorem crcInitRule : Obligations.CrcInitRule := by
  refine ⟨formatZ_of_mem rfl (by simp [spellings, mnemonicTable]), fun _ => rfl, fun s t h => ?_⟩
  cases h
  exact congrArg (respond ((s.setCrcAcc crcOnes).answer .ok 0#32) .ok) BitVec.xor_self

/-- Settles O22: eight iterations keep no word but zero, since one iteration keeps none. -/
theorem crcUpdRule : Obligations.CrcUpdRule :=
  ⟨formatB_of_mem rfl (by simp [spellings, mnemonicTable]), fun _ _ => rfl,
    fun _ ha h => ha (eq_zero_of_crcStep_zero_eq h), rfl, by decide, by decide, by decide, by decide⟩

/-- Settles O23: from the checksum on `VAL.RUN` leaves `Raw` of the payload, before it the accumulator as it was. -/
theorem crcGetRule : Obligations.CrcGetRule := by
  refine ⟨formatZ_of_mem rfl (by simp [spellings, mnemonicTable]), fun _ => rfl, fun s t h => ?_⟩
  obtain ⟨-, rfl⟩ := execValRun_next_iff.mp h
  refine ⟨fun hsize => ?_, fun hsize => if_neg hsize⟩
  have hacc : s.validated.crcAcc = crcRaw s.payload := if_pos hsize
  exact congrArg (fun a => respond s.validated .ok (a ^^^ crcOnes)) hacc

/-! ## The stream -/

theorem crcRaw_append_singleton (m : List Byte) (b : Byte) : crcRaw (m ++ [b]) = crcStep (crcRaw m) b :=
  crcFeedRaw_append crcOnes m [b]

theorem performAll_cons_next {i : Instr} {is : List Instr} {s t : State} (h : performAll (i :: is) s = .next t) :
    ∃ u, exec i s = .next u ∧ performAll is u = .next t := by
  rw [performAll] at h
  split at h
  · next u hu => exact ⟨u, hu, h⟩
  · cases h
  · cases h

/-- What a command that keeps the stream makes of it: `CRC.UPD` feeds its byte, the others leave it (R19). -/
theorem crcAcc_of_exec {i : Instr} {s t : State} (hi : keepsStream [i]) (h : exec i s = .next t) :
    t.crcAcc = crcFeedRaw s.crcAcc (fedBytes [i]) := by
  obtain ⟨-, -, hacc, -⟩ := writeTable i s t h
  cases i with
  | sysRst | crcInit | valRun => simp [keepsStream] at hi
  | _ => exact hacc

theorem fedBytes_cons (i : Instr) (is : List Instr) : fedBytes (i :: is) = fedBytes [i] ++ fedBytes is := by
  cases i <;> rfl

theorem keepsStream_cons {i : Instr} {is : List Instr} :
    keepsStream (i :: is) ↔ keepsStream [i] ∧ keepsStream is := by
  simp only [keepsStream, List.mem_cons, List.not_mem_nil, or_false, not_or]
  tauto

theorem crcAcc_of_performAll {is : List Instr} {s t : State} (his : keepsStream is) (h : performAll is s = .next t) :
    t.crcAcc = crcFeedRaw s.crcAcc (fedBytes is) := by
  induction is generalizing s with
  | nil =>
    cases h
    rfl
  | cons i is ih =>
    obtain ⟨hi, hrest⟩ := keepsStream_cons.mp his
    obtain ⟨u, hu, ht⟩ := performAll_cons_next h
    rw [ih hrest ht, crcAcc_of_exec hi hu, ← crcFeedRaw_append, ← fedBytes_cons]

/-- `CRC.FEED` (R62): the bytes fed in order, one `OK` for each. -/
theorem performAll_crcFeed (m : List Byte) (s : State) :
    performAll (crcFeed m) s = .next
      { s with crcAcc := crcFeedRaw s.crcAcc m,
               responses := s.responses ++ List.replicate m.length ⟨0x00#8, 0#32⟩ } := by
  induction m generalizing s with
  | nil => simp [performAll, crcFeed, crcFeedRaw]
  | cons b m ih =>
    have hupd : exec (.crcUpd b) s = .next ((s.setCrcAcc (crcStep s.crcAcc b)).answer .ok 0#32) := rfl
    rw [crcFeed, List.map_cons, performAll_cons_of_next hupd, ← crcFeed, ih, List.length_cons, List.replicate_succ,
      List.append_cons]
    rfl

/-- Settles O19: by induction on the commands, the accumulator is that of the bytes fed. -/
theorem crcStreaming : Obligations.CrcStreaming := by
  have hinit (s : State) : exec .crcInit s = .next ((s.setCrcAcc crcOnes).answer .ok 0#32) := rfl
  refine ⟨rfl, fun _ => rfl, crcRaw_append_singleton, fun is s t his h => ?_, fun m s => ?_⟩
  · rw [performAll_cons_of_next (hinit s)] at h
    have hacc : t.crcAcc = crcRaw (fedBytes is) := crcAcc_of_performAll his h
    exact ⟨hacc, congrArg (fun a => respond t .ok (a ^^^ crcOnes)) hacc⟩
  · rw [performAll_cons_of_next (hinit s), performAll_crcFeed, List.replicate_succ, List.append_cons]
    rfl

/-! ## A payload byte changed -/

/-- A slice from 0, around one of its bytes. -/
theorem Memory.slice_zero_split (m : Memory) {a n : Nat} (h : a < n) :
    m.slice 0 n = m.slice 0 a ++ m.read a :: m.slice (a + 1) (n - (a + 1)) := by
  have hn : n = a + (n - (a + 1) + 1) := by omega
  conv_lhs => rw [hn, Memory.slice_append, Nat.zero_add, Memory.slice_succ]

/-- Two states that hold the same footer: `LEN` and the bytes from `LEN - 20` on are equal. -/
structure State.SameFooter (s t : State) : Prop where
  len : s.len = t.len
  bytes : ∀ x, s.len.toNat - 20 ≤ x → s.buf.read x = t.buf.read x

theorem State.SameFooter.slice {s t : State} (h : s.SameFooter t) {a n : Nat} (ha : s.len.toNat - 20 ≤ a) :
    s.buf.slice a n = t.buf.slice a n :=
  Memory.slice_congr a n fun x hx _ => h.bytes x (by omega)

theorem State.SameFooter.tag {s t : State} (h : s.SameFooter t) : s.tag = t.tag := by
  unfold State.tag
  rw [← h.len, h.slice (by omega)]

theorem State.SameFooter.footerAt {s t : State} (h : s.SameFooter t) : s.footerAt = t.footerAt := by
  unfold State.footerAt State.memRead
  rw [← h.len, h.slice (by omega), h.slice (by omega), h.slice (by omega), h.slice (by omega)]

theorem State.SameFooter.sizeOk {s t : State} (h : s.SameFooter t) : s.SizeOk ↔ t.SizeOk := by
  unfold State.SizeOk State.TagOk
  rw [h.tag, h.footerAt, h.len]

/-- Where the payloads differ in the byte at `a` only, so do their checksums. -/
theorem State.crc32_payload_ne {s t : State} {a : Nat} (hlen : s.len = t.len) (ha : a < s.len.toNat - 20)
    (hne : s.buf.read a ≠ t.buf.read a) (hsame : ∀ x, x ≠ a → s.buf.read x = t.buf.read x) :
    crc32 s.payload ≠ crc32 t.payload := by
  unfold State.payload
  rw [← hlen, Memory.slice_zero_split s.buf ha, Memory.slice_zero_split t.buf ha,
    Memory.slice_congr 0 a fun x _ hx => hsame x (by omega),
    Memory.slice_congr (a + 1) _ fun x hx _ => hsame x (by omega)]
  exact crc32_ne_of_byte_ne hne _ _

/-- A `VAL.RUN` that opens the gate has found every check passed. -/
theorem passed_of_execValRun {s t : State} (h : execValRun s = .next t) (hgate : t.gate = true) :
    s.SizeOk ∧ crc32 s.payload = s.footerAt.csum := by
  obtain ⟨-, rfl⟩ := execValRun_next_iff.mp h
  obtain ⟨htag, hfields, hsize, hsum, -, -⟩ := s.validated_verdictInv.passInv hgate
  rw [hfields] at hsize hsum
  exact ⟨⟨htag, hsize.symm⟩, hsum⟩

/-- Settles O43: tag and size still pass, and the footer's checksum is that of the payload before the change. -/
theorem onePayloadByteChangeIsCaught : Obligations.OnePayloadByteChangeIsCaught := by
  intro s t s' a h hgate hcfg hlen ha hne hsame
  obtain ⟨hsize, hsum⟩ := passed_of_execValRun h hgate
  have hfoot : s'.SameFooter s := ⟨hlen, fun x hx => hsame x (by rw [hlen] at hx; omega)⟩
  have hbad : crc32 s'.payload ≠ s'.footerAt.csum := by
    rw [hfoot.footerAt, ← hsum]
    exact State.crc32_payload_ne hlen (hlen ▸ ha) hne hsame
  have hjudged : s'.judgement = (.failCsum, crc32 s'.payload) := by
    rw [State.judgement_of_sizeOk (hfoot.sizeOk.mpr hsize), if_pos hbad]
  have hinside : 20 ≤ s'.len.toNat → s'.len.toNat ≤ s'.cfg.bufsz.toNat := by
    rw [hcfg, hlen]
    exact (execValRun_next_iff.mp h).1
  refine ⟨s'.validated, crc32 s'.payload, execValRun_eq hinside, ?_, ?_⟩ <;> rw [State.validated, hjudged] <;> rfl

/-! ## A container built by the host -/

theorem u32OfBytes_le32 (v : Word) : u32OfBytes (le32 v) = v := by
  apply BitVec.eq_of_toNat_eq
  rw [toNat_u32OfBytes (length_le32 v)]
  simp [le32, leValue, Nat.shiftRight_eq_div_pow]
  omega

/-- R103, one direction. -/
theorem decodeFooter_encodeFooter (f : FooterData) : decodeFooter (encodeFooter f) = some f := by
  refine decodeFooter_eq_some.mpr ⟨rfl, ?_⟩
  have h0 : fieldOfBytes (encodeFooter f) 0 = f.orig := u32OfBytes_le32 f.orig
  have h1 : fieldOfBytes (encodeFooter f) 1 = f.comp := u32OfBytes_le32 f.comp
  have h2 : fieldOfBytes (encodeFooter f) 2 = f.csum := u32OfBytes_le32 f.csum
  have h3 : fieldOfBytes (encodeFooter f) 3 = f.kind := u32OfBytes_le32 f.kind
  rw [h0, h1, h2, h3]

/-- A container that ends in an encoded footer: its parts (R120, R122). -/
structure State.Holds (s : State) (p : List Byte) (f : FooterData) : Prop where
  len : s.len.toNat = p.length + 20
  payload : s.payload = p
  tagOk : s.TagOk
  footerAt : s.footerAt = f

theorem State.holds_of_container {s : State} {p : List Byte} {f : FooterData}
    (h : s.container = p ++ encodeFooter f) : s.Holds p f := by
  have hlen : s.len.toNat = p.length + 20 := by
    have := congrArg List.length h
    rwa [State.container, Memory.length_slice, List.length_append, length_encodeFooter] at this
  have hlong : 20 ≤ s.len.toNat := by omega
  have hplen : s.len.toNat - 20 = p.length := by omega
  rw [State.container, hlen, Memory.slice_append, Nat.zero_add] at h
  obtain ⟨hpay, hfoot⟩ := List.append_inj h (Memory.length_slice _ _ _)
  have hdec := decodeFooter_slice s hlong
  rw [hplen, hfoot, decodeFooter_encodeFooter] at hdec
  split at hdec
  · next htag => exact ⟨hlen, by rw [State.payload, hplen, hpay], ⟨hlong, htag⟩, (Option.some.inj hdec).symm⟩
  · cases hdec

/-- The fields that pass step 5 (R125). -/
theorem FooterData.judgement_of_passing {o c x k : Word} (h : k = 0#32 ∧ o = c ∨ k = 1#32 ∨ k = 2#32) :
    (⟨o, c, x, k⟩ : FooterData).judgement = (if k = 0#32 then .passStored else .passLz4, o) := by
  unfold FooterData.judgement
  obtain ⟨rfl, rfl⟩ | rfl | rfl := h
  · simp
  · rfl
  · rfl

/-- A container whose footer names its own length and checksum reaches step 5. -/
theorem State.Holds.sizeOk {s : State} {p : List Byte} {o x k : Word}
    (h : s.Holds p ⟨o, BitVec.ofNat 32 p.length, x, k⟩) : s.SizeOk := by
  have := s.len.isLt
  have := h.len
  refine ⟨h.tagOk, ?_⟩
  rw [h.footerAt, BitVec.toNat_ofNat]
  omega

theorem State.Holds.judgement {s : State} {p : List Byte} {o k : Word}
    (h : s.Holds p ⟨o, BitVec.ofNat 32 p.length, crc32 p, k⟩)
    (hk : k = 0#32 ∧ o = BitVec.ofNat 32 p.length ∨ k = 1#32 ∨ k = 2#32) :
    s.judgement = (if k = 0#32 then .passStored else .passLz4, o) := by
  rw [State.judgement_of_sizeOk h.sizeOk, h.payload, h.footerAt, if_neg (not_not.mpr rfl),
    FooterData.judgement_of_passing hk]

/-- Settles O45: the container loaded is the payload and the footer, so every check passes. -/
theorem builtContainerPasses : Obligations.BuiltContainerPasses := by
  intro p o k s hs hempty hroom hk
  have hzero : s.len.toNat = 0 := by rw [hempty]; rfl
  have hk' : k = 0#32 ∧ o = BitVec.ofNat 32 p.length ∨ k = 1#32 ∨ k = 2#32 :=
    hk.imp_left (And.imp_right fun ho => by rw [← ho, BitVec.ofNat_toNat, BitVec.setWidth_eq])
  have hfit : s.len.toNat + (p ++ encodeFooter ⟨o, BitVec.ofNat 32 p.length, crc32 p, k⟩).length ≤
      s.cfg.bufsz.toNat := by
    rwa [hzero, Nat.zero_add, List.length_append, length_encodeFooter]
  obtain ⟨t, hload, ht⟩ := performAll_bufLoad _ hs hfit
  have hholds : t.Holds p ⟨o, BitVec.ofNat 32 p.length, crc32 p, k⟩ :=
    State.holds_of_container (by rw [ht.container, State.container, hzero, Memory.slice_zero, List.nil_append])
  have hjudged := hholds.judgement hk'
  refine ⟨t, t.validated, hload, execValRun_eq fun _ => ht.wf.len, ?_, ?_, ?_, hholds.payload⟩
  · rw [State.validated, hjudged]
    split_ifs <;> rfl
  · rw [State.validated, hjudged]
    split_ifs <;> rfl
  · exact (if_pos hholds.tagOk).trans hholds.footerAt

end Sys2Proof.Machine

/-! PROOFS. Family `42_buf.md`: the buffer commands, and the footer that is parsed back after it was pushed. -/

namespace Sys2Proof.Machine

/-! ## The buffer commands -/

/-- The length check is the first (R120). -/
theorem State.outcome_of_lt {s : State} (h : s.len.toNat < 20) : s.outcome = Verdict.failShort.value := if_pos h

/-- A verdict over a container shorter than a footer is `NONE` or `FAIL_SHORT` (R16). -/
theorem State.VerdictInv.none_or_failShort {s : State} (h : s.VerdictInv) (hshort : s.len.toNat < 20) :
    s.verdict = Verdict.none.value ∨ s.verdict = Verdict.failShort.value :=
  h.imp_right fun hjudged => hjudged.1.trans (State.outcome_of_lt hshort)

/-- Settles O24: the format of its word and the definition of the command; an empty container is short. -/
theorem bufClrRule : Obligations.BufClrRule := by
  refine ⟨formatZ_of_mem rfl (by simp [spellings, mnemonicTable]), fun _ => rfl, fun s hinv hempty => ?_⟩
  exact hinv.none_or_failShort (by rw [hempty]; decide)

/-- A full buffer drops the byte (R91). -/
theorem execBufPush_of_full {s : State} (h : s.len = s.cfg.bufsz) (b : Byte) :
    execBufPush b s = .next (s.answer .eOverflow 0#32) := if_pos h

/-- Settles O25: a full buffer is left alone; otherwise the write at index `LEN` is read there and at no other index. -/
theorem bufPushRule : Obligations.BufPushRule := by
  refine ⟨formatB_of_mem rfl (by simp [spellings, mnemonicTable]), fun b s hfull => execBufPush_of_full hfull b,
    fun b s hbuf hroom => ?_⟩
  refine ⟨s.buf.write s.len.toNat b, s.len + 1#32, execBufPush_of_lt hroom b, State.toNat_len_pushed hroom b, ?_,
    fun a ha => ?_⟩
  · rw [Memory.read_write_of_wf hbuf, if_pos rfl]
  · rw [Memory.read_write_of_wf hbuf, if_neg ha]

theorem State.length_container (s : State) : s.container.length = s.len.toNat := Memory.length_slice _ _ _

/-- Settles O26: the answer is the definition of the command, its bound the state invariant (R14). -/
theorem bufLenRule : Obligations.BufLenRule :=
  ⟨formatZ_of_mem rfl (by simp [spellings, mnemonicTable]), fun _ => rfl,
    fun s => ⟨s.length_container.symm, State.Wf.len⟩⟩

/-! ## A footer pushed and parsed -/

/-- `FTR.PARSE` of a container with the tag takes the fields of its footer (R104). -/
theorem execFtrParse_of_tagOk {s : State} (hle : s.len.toNat ≤ s.cfg.bufsz.toNat) (htag : s.TagOk) :
    execFtrParse s = .next (((s.setF s.footerAt).setVerdict .none).answer .ok 0#32) := by
  obtain ⟨hlong, hmagic⟩ := htag
  have hdec : decodeFooter (s.buf.slice (s.len.toNat - 20) 20) = some s.footerAt :=
    (decodeFooter_slice s hlong).trans (if_pos hmagic)
  rw [execFtrParse, if_neg (by omega), State.withBytes_of_le (by omega), hdec]
  rfl

/-- `FTR.PARSE` of a container that ends in an encoded footer gives its fields back (R103, R104). -/
theorem State.Holds.execFtrParse_eq {s : State} {p : List Byte} {f : FooterData} (h : s.Holds p f)
    (hle : s.len.toNat ≤ s.cfg.bufsz.toNat) :
    execFtrParse s = .next (((s.setF f).setVerdict .none).answer .ok 0#32) := by
  rw [execFtrParse_of_tagOk hle h.tagOk, h.footerAt]

/-- Settles O37: the container loaded is the old one and the encoded footer, which `FTR.PARSE` reads back. -/
theorem pushedFooterParsesBack : Obligations.PushedFooterParsesBack := by
  intro f s hs hroom
  obtain ⟨t, hload, ht⟩ := performAll_bufLoad (encodeFooter f) hs hroom
  have hholds : t.Holds s.container f := State.holds_of_container ht.container
  exact ⟨t, _, hload, hholds.execFtrParse_eq ht.wf.len, rfl⟩

end Sys2Proof.Machine

/-! PROOFS. Family `43_footer.md`: words and their four bytes, from that the footer codec both ways, then the footer
commands. -/

namespace Sys2Proof.Machine

/-! ## Four bytes and their word -/

/-- The word four bytes spell, with its weights (R33, R101). -/
theorem u32OfBytes_four (a b c d : Byte) : u32OfBytes [a, b, c, d] =
    BitVec.ofNat 32 (a.toNat + 256 * b.toNat + 65536 * c.toNat + 16777216 * d.toNat) := by
  have hvalue : leValue [a, b, c, d] = a.toNat + 256 * b.toNat + 65536 * c.toNat + 16777216 * d.toNat := by
    simp only [leValue]
    ring
  rw [u32OfBytes, hvalue]

/-- Four bytes are those of the word they spell; the other direction is `u32OfBytes_le32`. -/
theorem le32_u32OfBytes {t : List Byte} (h : t.length = 4) : le32 (u32OfBytes t) = t := by
  obtain ⟨a, b, c, d, rfl⟩ := List.length_eq_four.mp h
  have ha := a.isLt
  have hb := b.isLt
  have hc := c.isLt
  have hd := d.isLt
  rw [u32OfBytes_four, le32]
  congr 4 <;>
  · apply BitVec.eq_of_toNat_eq
    simp only [BitVec.extractLsb'_toNat, BitVec.toNat_ofNat, Nat.shiftRight_eq_div_pow]
    omega

/-- The bytes of words in order (R102): byte `i` is byte `i mod 4` of word `i div 4`. -/
theorem getElem?_flatMap_le32 : ∀ (vs : List Word) (i : Nat), i < 4 * vs.length →
    (vs.flatMap le32)[i]? = some ((vs.getD (i / 4) 0#32).extractLsb' (8 * (i % 4)) 8)
  | [], _, h => absurd h (Nat.not_lt_zero _)
  | _ :: _, 0, _ => rfl
  | _ :: _, 1, _ => rfl
  | _ :: _, 2, _ => rfl
  | _ :: _, 3, _ => rfl
  | v :: vs, i + 4, h => by
    rw [Nat.add_div_right i (by decide), Nat.add_mod_right]
    exact getElem?_flatMap_le32 vs i (by rw [List.length_cons] at h; omega)

/-! ## The footer codec -/

/-- Settles O29: tag and fields are each four of the twenty bytes. -/
theorem decodeFooterRule : Obligations.DecodeFooterRule := by
  intro t
  have htag : tagOfBytes (List.ofFn t) = magic ↔ t 16 = 0x44#8 ∧ t 17 = 0x56#8 ∧ t 18 = 0x50#8 ∧ t 19 = 0x4C#8 := by
    have hbytes : tagOfBytes (List.ofFn t) = [t 16, t 17, t 18, t 19] := rfl
    rw [hbytes]
    simp [magic]
  have h0 : fieldOfBytes (List.ofFn t) 0 = u32OfBytes [t 0, t 1, t 2, t 3] := rfl
  have h1 : fieldOfBytes (List.ofFn t) 1 = u32OfBytes [t 4, t 5, t 6, t 7] := rfl
  have h2 : fieldOfBytes (List.ofFn t) 2 = u32OfBytes [t 8, t 9, t 10, t 11] := rfl
  have h3 : fieldOfBytes (List.ofFn t) 3 = u32OfBytes [t 12, t 13, t 14, t 15] := rfl
  simp only [decodeFooter, htag, h0, h1, h2, h3, u32OfBytes_four]

/-- Settles O30: the first sixteen bytes are those of the four fields in order. -/
theorem encodeFooterRule : Obligations.EncodeFooterRule := by
  refine fun f => ⟨length_encodeFooter f, fun i hi => ?_, rfl⟩
  have hfields : (encodeFooter f).take 16 = [f.orig, f.comp, f.csum, f.kind].flatMap le32 := rfl
  rw [← List.getElem?_take_of_lt hi, hfields]
  exact getElem?_flatMap_le32 _ i hi

/-- Encoding the fields read from twenty bytes writes those bytes back, but for the tag (R103). -/
theorem encodeFooter_fieldOfBytes {t : List Byte} (h : t.length = 20) :
    encodeFooter ⟨fieldOfBytes t 0, fieldOfBytes t 1, fieldOfBytes t 2, fieldOfBytes t 3⟩ = t.take 16 ++ magic := by
  have hfield (k : Nat) (hk : k < 4) : le32 (fieldOfBytes t k) = (t.drop (4 * k)).take 4 :=
    le32_u32OfBytes (by rw [List.length_take, List.length_drop]; omega)
  have hjoin : t.take 16 = t.take 4 ++ (t.drop 4).take 4 ++ (t.drop 8).take 4 ++ (t.drop 12).take 4 := by
    rw [← List.take_add, ← List.take_add, ← List.take_add]
  rw [encodeFooter, hfield 0 (by decide), hfield 1 (by decide), hfield 2 (by decide), hfield 3 (by decide), hjoin]
  rfl

/-- Settles O31: words and their four bytes go over into each other, and so do footers. -/
theorem footerRoundTrip : Obligations.FooterRoundTrip := by
  refine ⟨decodeFooter_encodeFooter, fun t hlen htag => ⟨_, decodeFooter_eq_some.mpr ⟨?_, rfl⟩, ?_⟩⟩
  · rw [tagOfBytes, htag]
    rfl
  · rw [encodeFooter_fieldOfBytes hlen, magic, ← htag, List.take_append_drop]

/-! ## The footer commands -/

/-- `FTR.PARSE` of a container without the tag answers what stands in its place (R104). -/
theorem execFtrParse_of_not_tagOk {s : State} (hlong : 20 ≤ s.len.toNat) (hle : s.len.toNat ≤ s.cfg.bufsz.toNat)
    (htag : ¬ s.TagOk) :
    execFtrParse s = .next (s.answer .eMagic (BitVec.ofNat 32 (s.memRead (s.len.toNat - 4) 4))) := by
  obtain ⟨t, ht⟩ := execFtrParse_isNext hle
  obtain ⟨hshort, -⟩ | ⟨-, -, rfl⟩ | ⟨h, -⟩ := execFtrParse_next ht
  · omega
  · exact ht
  · exact absurd h htag

/-- Four bytes in place of the tag that spell the number of the magic are the magic (R100). -/
theorem State.tagOk_of_memRead {s : State} (hlong : 20 ≤ s.len.toNat)
    (h : BitVec.ofNat 32 (s.memRead (s.len.toNat - 4) 4) = 0x4C505644#32) : s.TagOk := by
  have hlen : s.tag.length = 4 := Memory.length_slice _ _ _
  exact ⟨hlong, (le32_u32OfBytes hlen).symm.trans (congrArg le32 h)⟩

/-- Settles O32: the three ends of `FTR.PARSE`, by the length and the tag. -/
theorem ftrParseRule : Obligations.FtrParseRule := by
  refine ⟨formatZ_of_mem rfl (by simp [spellings, mnemonicTable]), fun s hshort => if_pos hshort,
    fun s hlong hle htag => ?_, fun s hle htag => ?_⟩
  · exact ⟨_, toNat_memRead_four s _, fun h => htag (State.tagOk_of_memRead hlong h),
      execFtrParse_of_not_tagOk hlong hle htag⟩
  · exact ⟨s.footerAt, toNat_memRead_four s _, toNat_memRead_four s _, toNat_memRead_four s _,
      toNat_memRead_four s _, execFtrParse_of_tagOk hle htag⟩

/-- Beyond the encoded footer `FTR.ENCB` answers `E_RANGE` (R105). -/
theorem execFtrEncb_of_le {b : Byte} (h : 20 ≤ b.toNat) (s : State) :
    execFtrEncb b s = .next (s.answer .eRange 0#32) := by
  obtain ⟨t, ht⟩ := execFtrEncb_isNext b s
  obtain ⟨-, rfl⟩ | ⟨hlt, -⟩ := execFtrEncb_next ht
  · exact ht
  · omega

/-- Settles O33: an index from 20 on has no byte, one below has the footer's, the last four of which no field decides. -/
theorem ftrEncbRule : Obligations.FtrEncbRule := by
  refine ⟨formatB_of_mem rfl (by simp [spellings, mnemonicTable]), fun b s h => execFtrEncb_of_le h s,
    fun b s h => ?_, fun _ => ⟨rfl, rfl, rfl, rfl⟩, rfl⟩
  have hx : (encodeFooter s.f)[b.toNat]? = some ((encodeFooter s.f)[b.toNat]'h) := List.getElem?_eq_getElem h
  exact ⟨_, hx, execFtrEncb_of_getElem? hx⟩

/-- Settles O35: the format of each word and the definition of each command; an open gate means the size check passed. -/
theorem ftrReadRules : Obligations.FtrReadRules := by
  refine ⟨formatZ_of_mem rfl ?_, formatZ_of_mem rfl ?_, formatZ_of_mem rfl ?_, formatZ_of_mem rfl ?_,
    fun s hinv hgate => (hinv hgate).size, fun s => ⟨rfl, rfl, rfl, rfl⟩⟩ <;> simp [spellings, mnemonicTable]

/-- A row of format W performs its command at every argument (R55). -/
theorem formatW_of_mem {op : Byte} {k : Word → Instr} (hop : opcodeOf (k 0#32) = op) (h : .w k ∈ spellings) :
    FormatW op k := by
  subst hop
  exact fun v => runsAs_of_decode (decode_opcode h v)

/-- Settles O36: the format of each word and the definition of each command. -/
theorem ftrWriteRules : Obligations.FtrWriteRules := by
  refine ⟨formatW_of_mem rfl ?_, formatW_of_mem rfl ?_, formatW_of_mem rfl ?_, formatW_of_mem rfl ?_,
    fun v s => ⟨rfl, rfl, rfl, rfl⟩⟩ <;> simp [spellings, mnemonicTable]

end Sys2Proof.Machine

/-! PROOFS. Family `44_validator.md`: `VAL.RUN` branch by branch and as a function of the container alone, then the payload
port and the payload read out through it, and the one footer field that a pass over an LZ4 payload leaves free. -/

namespace Sys2Proof.Machine

/-! ## `VAL.RUN`, branch by branch -/

/-- Kind 0 asks for equal sizes (R125). -/
theorem FooterData.judgement_of_stored {f : FooterData} (hkind : f.kind = 0#32) :
    f.judgement = (if f.orig = f.comp then .passStored else .failStored, f.orig) := by
  rw [FooterData.judgement, if_pos hkind]
  split_ifs <;> rfl

/-- Kinds 1 and 2 ask for nothing more (R125). -/
theorem FooterData.judgement_of_lz4 {f : FooterData} (hkind : f.kind = 1#32 ∨ f.kind = 2#32) :
    f.judgement = (.passLz4, f.orig) := by
  have hne : f.kind ≠ 0#32 := by rcases hkind with h | h <;> simp [h]
  exact (FooterData.judgement_of_passing (.inr hkind)).trans (by rw [if_neg hne])

/-- From the checksum on the state left is a matter of the verdict and the data only (R124, R125). -/
theorem State.validated_of_judgement {s : State} {v : Verdict} {d : Word} (hsize : s.SizeOk) (h : s.judgement = (v, d)) :
    s.validated = (((s.setF s.footerAt).setCrcAcc (crc32 s.payload ^^^ crcOnes)).setVerdict v).answer v.code d := by
  have hraw : crc32 s.payload ^^^ crcOnes = crcRaw s.payload := by simp [crc32]
  rw [State.validated_of_sizeOk hsize, h, hraw]

/-- Settles O38: the branches of the rule in its order, each by what the state left is there. -/
theorem valRunRule : Obligations.ValRunRule := by
  refine ⟨formatZ_of_mem rfl (by simp [spellings, mnemonicTable]),
    fun s hs => (execValRun_eq fun _ => hs).trans (congrArg Host.Outcome.next ?_)⟩
  split_ifs with hshort htag hcomp hsum hkind horig hlz4
  · exact State.validated_of_short hshort
  · exact State.validated_of_not_tagOk (Nat.not_lt.mp hshort) fun h => htag h.2
  all_goals have htagOk : s.TagOk := ⟨Nat.not_lt.mp hshort, not_not.mp htag⟩
  · exact State.validated_of_not_sizeOk htagOk fun h => hcomp h.2
  all_goals have hsize : s.SizeOk := ⟨htagOk, not_not.mp hcomp⟩
  · exact State.validated_of_judgement (v := .failCsum) hsize ((State.judgement_of_sizeOk hsize).trans (if_pos hsum))
  all_goals have hkinds : s.judgement = s.footerAt.judgement := (State.judgement_of_sizeOk hsize).trans (if_neg hsum)
  · exact State.validated_of_judgement (v := .failStored) hsize
      (by rw [hkinds, FooterData.judgement_of_stored hkind, if_neg horig])
  · exact State.validated_of_judgement (v := .passStored) hsize
      (by rw [hkinds, FooterData.judgement_of_stored hkind, if_pos (not_not.mp horig)])
  · exact State.validated_of_judgement hsize (hkinds.trans (FooterData.judgement_of_lz4 hlz4))
  · exact State.validated_of_judgement (v := .failKind) hsize (hkinds.trans ((if_neg hkind).trans (if_neg hlz4)))

/-! ## `VAL.RUN` reads the container alone -/

theorem State.sameContainer_validated (s : State) : s.SameContainer s.validated := ⟨rfl, rfl, fun _ _ => rfl⟩

/-- A second `VAL.RUN` finds its registers as it would write them, so it adds its response only (R126). -/
theorem State.validated_validated (s : State) :
    s.validated.validated = s.validated.answer s.judgement.1.code s.judgement.2 := by
  have hsame := s.sameContainer_validated
  have hf : (if s.TagOk then s.footerAt else s.validated.f) = s.validated.f :=
    ite_eq_right_iff.mpr fun htag => (if_pos htag).symm
  have hacc : (if s.SizeOk then crcRaw s.payload else s.validated.crcAcc) = s.validated.crcAcc :=
    ite_eq_right_iff.mpr fun hsize => (if_pos hsize).symm
  rw [State.validated, ← hsame.ite_footerAt, ← hsame.ite_crcRaw, ← hsame.judgement, hf, hacc]
  rfl

/-- Settles O39: verdict and response are the judgement, which is a function of the container, and a second run finds the
container as it was. -/
theorem valRunReadsOnlyTheContainerAndIsIdempotent : Obligations.ValRunReadsOnlyTheContainerAndIsIdempotent := by
  refine ⟨fun s t s' hst h => ?_, fun s t h => ?_⟩
  · obtain ⟨hs, rfl⟩ := execValRun_next_iff.mp h
    have ht : execValRun t = .next t.validated := execValRun_eq (by rwa [← hst.len, ← hst.cfg])
    refine ⟨t.validated, ⟨s.judgement.1.code.value, s.judgement.2⟩, ht, rfl, ?_, ?_⟩
    · rw [hst.judgement]
      rfl
    · exact congrArg (fun j => j.1.value) hst.judgement
  · obtain ⟨hs, rfl⟩ := execValRun_next_iff.mp h
    exact ⟨_, rfl, (execValRun_eq (s := s.validated) hs).trans (congrArg Host.Outcome.next s.validated_validated)⟩

/-! ## The payload port -/

/-- The gate in the words of R17. -/
theorem State.gate_iff {s : State} : s.gate = true ↔ s.verdict = 0x01#8 ∨ s.verdict = 0x02#8 := by
  simp [State.gate]

/-- A payload index is answered with its byte (R127). -/
theorem execPayRd_of_lt {s : State} {v : Word} (hgate : s.gate = true) (hle : s.len.toNat ≤ s.cfg.bufsz.toNat)
    (hv : v.toNat < s.len.toNat - 20) : execPayRd v s = .next (s.answer .ok ((s.buf.read v.toNat).setWidth 32)) := by
  obtain ⟨t, ht⟩ := execPayRd_isNext hle v
  obtain ⟨hshut, -⟩ | ⟨-, hout, -⟩ | ⟨-, -, -, rfl⟩ := execPayRd_next ht
  · exact absurd hgate (by simp [hshut])
  · omega
  · exact ht

/-- Settles O40: the format of its words, then the gate, the range and the byte. -/
theorem payRdRule : Obligations.PayRdRule := by
  refine ⟨formatW_of_mem rfl (by simp [spellings, mnemonicTable]), fun v s h1 h2 => ?_, fun v s hpass hout => ?_,
    fun v s hpass hle hv => ?_⟩
  · exact if_neg fun hgate => (State.gate_iff.mp hgate).elim h1 h2
  · exact (if_pos (State.gate_iff.mpr hpass)).trans (if_neg (Nat.not_lt.mpr (Nat.sub_le_iff_le_add.mp hout)))
  · exact execPayRd_of_lt (State.gate_iff.mpr hpass) hle hv

/-- By induction on the number of indexes: from index `a` on, payload bytes are answered one after the other. -/
theorem performAll_payRd : ∀ (n a : Nat) {s : State}, s.gate = true → s.len.toNat ≤ s.cfg.bufsz.toNat →
    a + n ≤ s.len.toNat - 20 →
    performAll ((List.range' a n).map fun k => .payRd (BitVec.ofNat 32 k)) s =
      .next { s with responses := s.responses ++ (s.buf.slice a n).map fun x => ⟨0x00#8, x.setWidth 32⟩ }
  | 0, a, s, _, _, _ => by simp [performAll]
  | n + 1, a, s, hgate, hle, hin => by
    have ha : (BitVec.ofNat 32 a).toNat = a := by
      have := s.len.isLt
      exact Nat.mod_eq_of_lt (by omega)
    have hexec : exec (.payRd (BitVec.ofNat 32 a)) s = .next (s.answer .ok ((s.buf.read a).setWidth 32)) := by
      have hread := execPayRd_of_lt (v := BitVec.ofNat 32 a) hgate hle (by omega)
      rwa [ha] at hread
    have hrest := performAll_payRd n (a + 1) (s := s.answer .ok ((s.buf.read a).setWidth 32)) hgate hle
      (by rw [State.answer_len]; omega)
    rw [List.range'_succ, List.map_cons, performAll_cons_of_next hexec, hrest, Memory.slice_succ]
    simp [State.answer, Code.value]

/-- Settles O42: a pass makes `F_COMP` the payload length, so every index below it is answered. -/
theorem payloadIsReadOutWhole : Obligations.PayloadIsReadOutWhole := by
  intro s t hle h hgate
  obtain ⟨-, rfl⟩ := execValRun_next_iff.mp h
  have hcomp : s.validated.f.comp.toNat = s.len.toNat - 20 := (s.validated_verdictInv.passInv hgate).size
  rw [hcomp, List.range_eq_range']
  exact performAll_payRd (s.len.toNat - 20) 0 hgate hle (Nat.zero_add _).le

/-! ## `originalSize` -/

/-- Two containers of one length that differ at most in the four bytes of `originalSize`. -/
structure State.SameButOrig (s t : State) : Prop where
  len : s.len = t.len
  bytes : ∀ x, x < s.len.toNat - 20 ∨ s.len.toNat - 16 ≤ x → s.buf.read x = t.buf.read x

theorem State.SameButOrig.payload {s t : State} (h : s.SameButOrig t) : s.payload = t.payload := by
  unfold State.payload
  rw [← h.len]
  exact Memory.slice_congr _ _ fun x _ hx => h.bytes x (by omega)

/-- Above `originalSize` the two footers have the same bytes. -/
theorem State.SameButOrig.slice {s t : State} (h : s.SameButOrig t) {a n : Nat} (ha : s.len.toNat - 16 ≤ a) :
    s.buf.slice a n = t.buf.slice a n :=
  Memory.slice_congr a n fun x hx _ => h.bytes x (by omega)

theorem State.SameButOrig.tag {s t : State} (h : s.SameButOrig t) : s.tag = t.tag := by
  unfold State.tag
  rw [← h.len, h.slice (by omega)]

theorem State.SameButOrig.footerAt {s t : State} (h : s.SameButOrig t) :
    s.footerAt = { t.footerAt with orig := s.footerAt.orig } := by
  simp only [State.footerAt, State.memRead]
  rw [← h.len, h.slice (a := s.len.toNat - 16) (by omega), h.slice (a := s.len.toNat - 12) (by omega),
    h.slice (a := s.len.toNat - 8) (by omega)]

theorem State.SameButOrig.sizeOk {s t : State} (h : s.SameButOrig t) : s.SizeOk ↔ t.SizeOk := by
  unfold State.SizeOk State.TagOk
  rw [h.tag, h.footerAt, h.len]

/-- Settles O44: tag, size and checksum pass as they did, and the dispatch on kind 1 or 2 compares `originalSize` with
nothing. -/
theorem originalSizeIsUncheckedForLz4 : Obligations.OriginalSizeIsUncheckedForLz4 := by
  intro s t s' h hv hcfg hlen hsame
  have hgate : t.gate = true := State.gate_iff.mpr (.inr hv)
  obtain ⟨hsize, hsum⟩ := passed_of_execValRun h hgate
  obtain ⟨hinside, rfl⟩ := execValRun_next_iff.mp h
  have hf : s.validated.f = s.footerAt := if_pos hsize.1
  have hkind := (s.validated_verdictInv.passInv hgate).lz4 hv
  have hbut : s'.SameButOrig s := ⟨hlen, by rwa [hlen]⟩
  have hfoot := hbut.footerAt
  have hsize' : s'.SizeOk := hbut.sizeOk.mpr hsize
  have hjudged : s'.judgement = (.passLz4, s'.footerAt.orig) := by
    rw [State.judgement_of_sizeOk hsize', if_neg (not_not.mpr (by rw [hbut.payload, hfoot, hsum]))]
    exact FooterData.judgement_of_lz4 (by rwa [hfoot, ← hf])
  have hleft := State.validated_of_judgement hsize' hjudged
  refine ⟨s'.validated, execValRun_eq (by rwa [hcfg, hlen]), ?_, ?_, ?_⟩
  · rw [hleft]
    rfl
  · rw [hf, ← hfoot]
    exact if_pos hsize'.1
  · rw [hleft]
    rfl

end Sys2Proof.Machine

/-! PROOFS. Family `60_exceptions.md`: the causes of R140 as a table, which no two codes share for one command and state;
from it the codes and data answered, and the state after an error (R141). -/

namespace Sys2Proof.Machine

/-! ## The table of R140 -/

/-- The rows of R140 but `OK`: whether the command `i` answers the code in the state `s`, by the columns `cause` and
`raised by`. `E_ILLEGAL` is the decoder's, so no command raises it. -/
def State.Cause (s : State) (i : Instr) : Code → Prop
  | .eOverflow => (∃ b, i = .bufPush b) ∧ s.len = s.cfg.bufsz
  | .eRange => (∃ b, i = .ftrEncb b ∧ 20 ≤ b.toNat) ∨
      ∃ v, i = .payRd v ∧ s.gate = true ∧ s.len.toNat - 20 ≤ v.toNat
  | .eGate => (∃ v, i = .payRd v) ∧ s.gate = false
  | .eShort => (i = .ftrParse ∨ i = .valRun) ∧ s.len.toNat < 20
  | .eMagic => (i = .ftrParse ∨ i = .valRun) ∧ 20 ≤ s.len.toNat ∧ ¬ s.TagOk
  | .eSize => i = .valRun ∧ s.TagOk ∧ ¬ s.SizeOk
  | .eCsum => i = .valRun ∧ s.SizeOk ∧ crc32 s.payload ≠ s.footerAt.csum
  | .eStored => i = .valRun ∧ s.SizeOk ∧ crc32 s.payload = s.footerAt.csum ∧ s.footerAt.kind = 0#32 ∧
      s.footerAt.orig ≠ s.footerAt.comp
  | .eKind => i = .valRun ∧ s.SizeOk ∧ crc32 s.payload = s.footerAt.csum ∧ 3 ≤ s.footerAt.kind.toNat
  | .ok | .eIllegal => False

/-- The column `data` of R140; that of `OK` is the command's own. -/
def State.errorData (s : State) : Code → Word
  | .eShort => s.len
  | .eMagic => BitVec.ofNat 32 (s.memRead (s.len.toNat - 4) 4)
  | .eSize => BitVec.ofNat 32 (s.len.toNat - 20)
  | .eCsum => crc32 s.payload
  | .eStored => s.footerAt.orig
  | .eKind => s.footerAt.kind
  | .ok | .eIllegal | .eOverflow | .eRange | .eGate => 0#32

/-- The code a command answers, its checks in the order of R142. -/
def State.codeOf (s : State) : Instr → Code
  | .bufPush _ => if s.len = s.cfg.bufsz then .eOverflow else .ok
  | .ftrParse => if s.len.toNat < 20 then .eShort else if ¬ s.TagOk then .eMagic else .ok
  | .ftrEncb b => if 20 ≤ b.toNat then .eRange else .ok
  | .payRd v => if s.gate = false then .eGate else if s.len.toNat - 20 ≤ v.toNat then .eRange else .ok
  | .valRun => s.judgement.1.code
  | .sysNop | .sysRst | .sysStat | .crcInit | .crcUpd _ | .crcGet | .bufClr | .bufLen | .ftrRdorig | .ftrRdcomp
  | .ftrRdcsum | .ftrRdkind | .ftrWrorig _ | .ftrWrcomp _ | .ftrWrcsum _ | .ftrWrkind _ => .ok

/-! ## A cause decides the code -/

/-- The kinds that step 5 refuses are those from 3 on (R125). -/
theorem three_le_toNat_iff {k : Word} : 3 ≤ k.toNat ↔ k ≠ 0#32 ∧ ¬ (k = 1#32 ∨ k = 2#32) := by
  bv_omega

theorem FooterData.judgement_of_three_le {f : FooterData} (h : 3 ≤ f.kind.toNat) : f.judgement = (.failKind, f.kind) := by
  obtain ⟨hstored, hlz4⟩ := three_le_toNat_iff.mp h
  rw [FooterData.judgement, if_neg hstored, if_neg hlz4]

/-- A container with the tag and a wrong size ends at step 3 (R123). -/
theorem State.judgement_of_not_sizeOk {s : State} (htag : s.TagOk) (hsize : ¬ s.SizeOk) :
    s.judgement = (.failSize, BitVec.ofNat 32 (s.len.toNat - 20)) := by
  rw [State.judgement, if_neg (Nat.not_lt.mpr htag.1), if_neg (not_not.mpr htag), if_pos hsize]

/-- With the tag, the size and the checksum right, the fields decide (R125). -/
theorem State.judgement_of_checksum {s : State} (hsize : s.SizeOk) (hsum : crc32 s.payload = s.footerAt.csum) :
    s.judgement = s.footerAt.judgement :=
  (State.judgement_of_sizeOk hsize).trans (if_neg (not_not.mpr hsum))

theorem State.codeOf_valRun {s : State} {v : Verdict} {d : Word} (h : s.judgement = (v, d)) :
    s.codeOf .valRun = v.code :=
  congrArg (fun j : Verdict × Word => j.1.code) h

/-- The causes exclude each other: one that holds is the first check to fail. -/
theorem State.Cause.codeOf_eq {s : State} {i : Instr} {c : Code} (h : s.Cause i c) : s.codeOf i = c := by
  cases c with
  | ok | eIllegal => exact h.elim
  | eOverflow =>
    obtain ⟨⟨b, rfl⟩, hfull⟩ := h
    exact if_pos hfull
  | eRange =>
    obtain ⟨b, rfl, hout⟩ | ⟨v, rfl, hgate, hout⟩ := h
    · exact if_pos hout
    · exact (if_neg (by simp [hgate])).trans (if_pos hout)
  | eGate =>
    obtain ⟨⟨v, rfl⟩, hgate⟩ := h
    exact if_pos hgate
  | eShort =>
    obtain ⟨rfl | rfl, hshort⟩ := h
    · exact if_pos hshort
    · exact State.codeOf_valRun (if_pos hshort)
  | eMagic =>
    obtain ⟨rfl | rfl, hlong, htag⟩ := h
    · exact (if_neg (Nat.not_lt.mpr hlong)).trans (if_pos htag)
    · exact State.codeOf_valRun ((if_neg (Nat.not_lt.mpr hlong)).trans (if_pos htag))
  | eSize =>
    obtain ⟨rfl, htag, hsize⟩ := h
    exact State.codeOf_valRun (State.judgement_of_not_sizeOk htag hsize)
  | eCsum =>
    obtain ⟨rfl, hsize, hsum⟩ := h
    exact State.codeOf_valRun ((State.judgement_of_sizeOk hsize).trans (if_pos hsum))
  | eStored =>
    obtain ⟨rfl, hsize, hsum, hkind, hsizes⟩ := h
    exact State.codeOf_valRun (v := .failStored)
      (by rw [State.judgement_of_checksum hsize hsum, FooterData.judgement_of_stored hkind, if_neg hsizes])
  | eKind =>
    obtain ⟨rfl, hsize, hsum, hkind⟩ := h
    exact State.codeOf_valRun
      ((State.judgement_of_checksum hsize hsum).trans (FooterData.judgement_of_three_le hkind))

/-! ## What a command answers -/

/-- A judgement that does not pass has its cause, and carries the data of it. -/
theorem State.judgement_cause (s : State) : s.judgement.1.code = .ok ∨
    (s.Cause .valRun s.judgement.1.code ∧ s.judgement.2 = s.errorData s.judgement.1.code) := by
  unfold State.judgement FooterData.judgement
  split_ifs with hshort htag hsize hsum hkind horig hlz4
  · exact .inr ⟨⟨.inr rfl, hshort⟩, rfl⟩
  · exact .inr ⟨⟨rfl, hsize, hsum⟩, rfl⟩
  · exact .inl rfl
  · exact .inr ⟨⟨rfl, hsize, not_not.mp hsum, hkind, horig⟩, rfl⟩
  · exact .inl rfl
  · exact .inr ⟨⟨rfl, hsize, not_not.mp hsum, three_le_toNat_iff.mpr ⟨hkind, hlz4⟩⟩, rfl⟩
  · exact .inr ⟨⟨rfl, htag, hsize⟩, rfl⟩
  · exact .inr ⟨⟨.inr rfl, Nat.not_lt.mp hshort, htag⟩, rfl⟩

/-- Every command but `VAL.RUN` answers `OK`, or has a cause for its error and adds the response only. -/
theorem ok_or_answer_of_exec {i : Instr} {s t : State} (hi : i ≠ .valRun) (h : exec i s = .next t) :
    (s.codeOf i = .ok ∧ ∃ d, t.responses = s.responses ++ [⟨Code.ok.value, d⟩]) ∨
      ∃ c, s.Cause i c ∧ t = s.answer c (s.errorData c) := by
  cases i with
  | valRun => exact absurd rfl hi
  | bufPush b =>
    obtain ⟨hfull, rfl⟩ | ⟨hroom, -, rfl⟩ := execBufPush_next h
    · exact .inr ⟨.eOverflow, ⟨⟨b, rfl⟩, hfull⟩, rfl⟩
    · exact .inl ⟨if_neg hroom, _, rfl⟩
  | ftrParse =>
    obtain ⟨hshort, rfl⟩ | ⟨hlong, htag, rfl⟩ | ⟨htag, rfl⟩ := execFtrParse_next h
    · exact .inr ⟨.eShort, ⟨.inl rfl, hshort⟩, rfl⟩
    · exact .inr ⟨.eMagic, ⟨.inl rfl, hlong, htag⟩, rfl⟩
    · exact .inl ⟨(if_neg (Nat.not_lt.mpr htag.1)).trans (if_neg (not_not.mpr htag)), _, rfl⟩
  | ftrEncb b =>
    obtain ⟨hout, rfl⟩ | ⟨hin, x, -, rfl⟩ := execFtrEncb_next h
    · exact .inr ⟨.eRange, .inl ⟨b, rfl, hout⟩, rfl⟩
    · exact .inl ⟨if_neg (Nat.not_le.mpr hin), _, rfl⟩
  | payRd v =>
    obtain ⟨hgate, rfl⟩ | ⟨hgate, hout, rfl⟩ | ⟨hgate, hin, -, rfl⟩ := execPayRd_next h
    · exact .inr ⟨.eGate, ⟨⟨v, rfl⟩, hgate⟩, rfl⟩
    · exact .inr ⟨.eRange, .inr ⟨v, rfl, hgate, hout⟩, rfl⟩
    · exact .inl ⟨(if_neg (by simp [hgate])).trans (if_neg (Nat.not_le.mpr hin)), _, rfl⟩
  | sysNop | sysRst | sysStat | crcInit | crcUpd | crcGet | bufClr | bufLen | ftrRdorig | ftrRdcomp | ftrRdcsum | ftrRdkind
  | ftrWrorig | ftrWrcomp | ftrWrcsum | ftrWrkind =>
    cases h
    exact .inl ⟨rfl, _, rfl⟩

/-- The response a state gained is determined by its list of responses. -/
theorem response_eq {s t : State} {r r' : Response} (h : t.responses = s.responses ++ [r])
    (h' : t.responses = s.responses ++ [r']) : r = r' :=
  List.singleton_inj.mp (List.append_cancel_left (h.symm.trans h'))

/-- The response of a command: `OK`, or the row of R140 whose cause holds. -/
theorem response_of_exec {i : Instr} {s t : State} {r : Response} (h : exec i s = .next t)
    (hr : t.responses = s.responses ++ [r]) :
    (s.codeOf i = .ok ∧ r.code = Code.ok.value) ∨ ∃ c, s.Cause i c ∧ r = ⟨c.value, s.errorData c⟩ := by
  by_cases hi : i = .valRun
  · subst hi
    obtain ⟨-, rfl⟩ := execValRun_next_iff.mp h
    obtain rfl := response_eq hr rfl
    obtain hok | ⟨hcause, hdata⟩ := s.judgement_cause
    · exact .inl ⟨hok, congrArg Code.value hok⟩
    · exact .inr ⟨_, hcause, congrArg (Response.mk _) hdata⟩
  · obtain ⟨hok, d, hd⟩ | ⟨c, hcause, rfl⟩ := ok_or_answer_of_exec hi h
    · obtain rfl := response_eq hr hd
      exact .inl ⟨hok, rfl⟩
    · exact .inr ⟨c, hcause, response_eq hr rfl⟩

theorem Code.value_injective : Function.Injective Code.value := by
  intro c c'
  cases c <;> cases c' <;> decide

/-- An error code is answered exactly for its cause (R140). -/
theorem code_eq_iff_cause {i : Instr} {s t : State} {r : Response} (h : exec i s = .next t)
    (hr : t.responses = s.responses ++ [r]) (c : Code) (hc : c ≠ .ok) : r.code = c.value ↔ s.Cause i c := by
  obtain ⟨hok, hcode⟩ | ⟨c', hcause, rfl⟩ := response_of_exec h hr
  · refine iff_of_false (fun e => hc (Code.value_injective (e.symm.trans hcode))) fun hcause => hc ?_
    exact hcause.codeOf_eq.symm.trans hok
  · refine Code.value_injective.eq_iff.trans ⟨fun e => e ▸ hcause, fun hc' => ?_⟩
    exact hcause.codeOf_eq.symm.trans hc'.codeOf_eq

/-- An error code carries its data (R140). -/
theorem data_of_code_eq {i : Instr} {s t : State} {r : Response} (h : exec i s = .next t)
    (hr : t.responses = s.responses ++ [r]) (c : Code) (hc : c ≠ .ok) (hcode : r.code = c.value) :
    r.data = s.errorData c := by
  obtain ⟨-, hok⟩ | ⟨c', -, rfl⟩ := response_of_exec h hr
  · exact absurd (Code.value_injective (hcode.symm.trans hok)) hc
  · exact congrArg s.errorData (Code.value_injective hcode)

/-! ## The statements -/

/-- Settles O12: by what is presented next. -/
theorem stepWithoutACommand : Obligations.StepWithoutACommand :=
  ⟨fun _ _ hin => step_of_input_reset hin, fun _ hin => step_of_input_nil hin⟩

theorem not_decode_of_error {cw : CmdWord} {e : Illegal} (h : decode cw = .error e) : ¬ ∃ i, decode cw = .ok i := by
  rintro ⟨i, hi⟩
  rw [h] at hi
  cases hi

/-- Settles O55: an error of a command other than `VAL.RUN` adds its response only; `VAL.RUN` leaves the state of its one
equation. -/
theorem stateAfterAnError : Obligations.StateAfterAnError := by
  refine ⟨fun s cw rest e hin he => ?_, fun i s t r hi h hr hfail => ?_, fun s t r h hr hfail => ?_⟩
  · exact ⟨_, answeredIllegal_of_not_decode (not_decode_of_error he) s rest hin, by decide⟩
  · obtain ⟨-, d, hd⟩ | ⟨c, -, rfl⟩ := ok_or_answer_of_exec hi h
    · obtain rfl := response_eq hr hd
      exact absurd rfl hfail
    · obtain rfl := response_eq hr rfl
      rfl
  · have hverdict := verdict_eq_code_of_execValRun h hr hfail
    obtain ⟨-, rfl⟩ := execValRun_next_iff.mp h
    rw [← hverdict, ← hr]
    rfl

theorem code_mem_codeValues_of_exec {i : Instr} {s t : State} {r : Response} (h : exec i s = .next t)
    (hr : t.responses = s.responses ++ [r]) : r.code ∈ codeValues := by
  obtain ⟨c, d, hcd⟩ := (commandEffect_of_exec h).responses
  exact response_eq hr hcd ▸ c.value_mem_codeValues

/-- A word that decodes is never answered `E_ILLEGAL`. -/
theorem code_ne_eIllegal_of_exec {i : Instr} {s t : State} {r : Response} (h : exec i s = .next t)
    (hr : t.responses = s.responses ++ [r]) : r.code ≠ 0x01#8 :=
  (code_eq_iff_cause h hr .eIllegal nofun).mp

/-- R140, the row `E_ILLEGAL`: by what the word decodes to. -/
theorem eIllegal_iff_of_step {s t : State} {cw : CmdWord} {rest : List Event} (hin : s.input = .command cw :: rest)
    (h : step s = .next t) :
    ((∃ d, t.responses = s.responses ++ [⟨0x01#8, d⟩]) ↔ ∃ e, decode cw = .error e) ∧
      ∀ d, t.responses = s.responses ++ [⟨0x01#8, d⟩] → d = 0#32 := by
  match hcw : decode cw with
  | .ok i =>
    have hexec : exec i (s.setInput rest) = .next t := (runsAs_of_decode hcw s rest hin).symm.trans h
    have hno (d : Word) : t.responses ≠ s.responses ++ [⟨0x01#8, d⟩] :=
      fun hr => code_ne_eIllegal_of_exec hexec hr rfl
    simp [hno]
  | .error e =>
    cases (answeredIllegal_of_not_decode (not_decode_of_error hcw) s rest hin).symm.trans h
    simp

/-- A `VAL.RUN` that passes the size check leaves the footer in `F` (R122). -/
theorem f_of_execValRun {s t : State} (h : execValRun s = .next t) (hsize : s.SizeOk) : t.f = s.footerAt := by
  obtain ⟨-, rfl⟩ := execValRun_next_iff.mp h
  exact if_pos hsize.1

/-- Settles O56, row by row of R140; `E_STORED` and `E_KIND` speak of the fields `VAL.RUN` has just written. -/
theorem responseCodes : Obligations.ResponseCodes := by
  refine ⟨fun s t cw rest hin h => eIllegal_iff_of_step hin h, fun i s t r h hr => ?_⟩
  have hcause := code_eq_iff_cause h hr
  have hdata := data_of_code_eq h hr
  have hf (hi : i = .valRun) (hsize : s.SizeOk) : t.f = s.footerAt := by
    subst hi
    exact f_of_execValRun h hsize
  refine ⟨code_mem_codeValues_of_exec h hr, code_ne_eIllegal_of_exec h hr, hcause .eOverflow nofun, hdata .eOverflow nofun,
    hcause .eRange nofun, hdata .eRange nofun, hcause .eGate nofun, hdata .eGate nofun, hcause .eShort nofun,
    hdata .eShort nofun, hcause .eMagic nofun, fun hcode => ?_, hcause .eSize nofun, fun hcode => ?_, hcause .eCsum nofun,
    hdata .eCsum nofun, (hcause .eStored nofun).trans ?_, fun hcode => ?_, (hcause .eKind nofun).trans ?_, fun hcode => ?_⟩
  · rw [hdata .eMagic nofun hcode]
    exact toNat_memRead_four s _
  · rw [hdata .eSize nofun hcode]
    exact Nat.mod_eq_of_lt (by have := s.len.isLt; omega)
  · exact and_congr_right fun hi => and_congr_right fun hsize => by rw [hf hi hsize]
  · obtain ⟨hi, hsize, -⟩ := (hcause .eStored nofun).mp hcode
    rw [hf hi hsize]
    exact hdata .eStored nofun hcode
  · exact and_congr_right fun hi => and_congr_right fun hsize => by rw [hf hi hsize]
  · obtain ⟨hi, hsize, -⟩ := (hcause .eKind nofun).mp hcode
    rw [hf hi hsize]
    exact hdata .eKind nofun hcode

end Sys2Proof.Machine
